-- ==== Sys2Proof/Word.lean ====
section
/-! DEFINITION. The two value types of the CORE: the 256-bit word of the operand stack (00_scope.md R6 `XLEN`,
R10; 10_state.md R23) and the byte of Code and Memory (R10). A word carries no sign of its own. -/

namespace Sys2Proof

/-- "A 256-bit unsigned integer, the native value type of the stack" (00_scope.md R10, R15). -/
abbrev Word := BitVec 256

/-- Eight bits: a byte of Code or of Memory, and an opcode (00_scope.md R10). -/
abbrev Byte := BitVec 8

end Sys2Proof
end

