-- ==== Sys2Proof/Config.lean ====
section
/-! DEFINITION. What an implementation of the CORE fixes (00_scope.md R6): the operations, the map from opcode byte
to operation (`OPCODE_MAP`), the three capacities, the growth unit, the three choices the source leaves open, and
the fault codes. Every parameter is plain data, so that a claim can name its value. The one free value of the model, what the code
store holds where the spec leaves it unspecified, is an opaque constant here. -/

namespace Sys2Proof

/-- The 62 operations of 30_encoding.md R85, in the order of its table. A byte selects one of them through an
`OpcodeMap`; an operation and its immediate make an `Instr`. -/
inductive Op where
  | add | mul | sub | div | sdiv | mod | smod | addmod | mulmod | exp | signextend | lt | gt | slt
  | sgt | eq | iszero | and | or | xor | not | byte | shl | shr | sar | mload | mstore | mstore8
  | msize | push0 | push1 | push2 | push3 | push4 | push5 | push6 | push7 | push8 | push9 | push10
  | push11 | push12 | push13 | push14 | push15 | push16 | push17 | push18 | push19 | push20
  | push21 | push22 | push23 | push24 | push25 | push26 | push27 | push28 | push29 | push30
  | push31 | push32
  deriving DecidableEq, Repr

/-- `OPCODE_MAP` (93_implementation_defined.md U5, 92_eei_decisions.md D1): which byte selects which operation.
A byte with no row is an invalid opcode (30_encoding.md R87). -/
abbrev OpcodeMap := List (Byte × Op)

/-- `SUB_ORDER` (R143, D6): which popped word of a subtraction is the minuend. -/
inductive SubOrder where
  | firstMinusSecond | secondMinusFirst
  deriving DecidableEq, Repr

/-- `SIGNED_MODE` (R145, R147, R178, D8): how signed divide, signed modulo and arithmetic shift right read a word. -/
inductive SignedMode where
  | twosComplement | sourceUnsigned
  deriving DecidableEq, Repr

/-- `PUSH_PAST_END` (R105, D10): a push whose immediate runs past the end of Code. -/
inductive PushPastEnd where
  | fault | zeroPad
  deriving DecidableEq, Repr

/-- The fault codes (R6, 60_exceptions.md R201, D16): the number `FAULT_KIND` holds for each of the five kinds. "None" has
no entry: it is 0 in every instance, the value of the field when no fault has occurred (10_state.md R26). Which codes a
valid instance may choose is settled by `faultCodesValid` (DESIGN CHOICE, assumption 25). -/
structure FaultCodes where
  stackUnderflow : BitVec 3
  invalidOpcode : BitVec 3
  stackOverflow : BitVec 3
  memoryLimit : BitVec 3
  truncatedCode : BitVec 3
  deriving DecidableEq, Repr

/-- The parameters of one instance of the CORE (00_scope.md R6). A capacity of `none` is the spec's `unbounded`. -/
structure Config where
  /-- `OPCODE_MAP`. -/
  opcodeMap : OpcodeMap
  /-- `STACK_CAP`: how many words the stack RAM holds (R24). -/
  stackCap : Option Nat
  /-- `MEM_CAP`: the largest length in bytes the Memory may reach (R25, R56). -/
  memCap : Option Nat
  /-- `CODE_CAP`: the largest code length in bytes (R22, R231). -/
  codeCap : Option Nat
  /-- `GROWTH_UNIT`: the Memory length is always a multiple of it (R56, R57). -/
  growthUnit : Nat
  subOrder : SubOrder
  signedMode : SignedMode
  pushPastEnd : PushPastEnd
  faultCodes : FaultCodes
  deriving DecidableEq, Repr

/-- FREE VALUE. What the code store holds where the spec leaves it unspecified: after a `RESET` that follows an
earlier run (70_reset_and_hazards.md R230, 93 U13) and after a `LOAD_CODE` refused for its length (R231). It has no
body, so no proof can see a value of it; the argument is a plain counter in `State` (assumption 5). -/
opaque Config.freeCode : Nat → List Byte

end Sys2Proof
end

