-- ==== Sys2Proof/Syntax.lean ====
section
/-! DEFINITION. The instructions of the CORE: one constructor per row of spec/opcode_table.json (30_encoding.md R85).
The only operand an instruction carries is the immediate of a push of size 1 to 32 (R80, R83); it is held as the word
it denotes, and `Instr.wellFormed` says that it fits the bytes its encoding has. -/

namespace Sys2Proof

inductive Instr where
  /-- 0x01, R141. -/
  | add
  /-- 0x02, R142. -/
  | mul
  /-- 0x03, R143. -/
  | sub
  /-- 0x04, R144. -/
  | div
  /-- 0x05, R145. -/
  | sdiv
  /-- 0x06, R146. -/
  | mod
  /-- 0x07, R147. -/
  | smod
  /-- 0x08, R148. -/
  | addmod
  /-- 0x09, R149. -/
  | mulmod
  /-- 0x0A, R150. -/
  | exp
  /-- 0x0B, R151. -/
  | signextend
  /-- 0x10, R161. -/
  | lt
  /-- 0x11, R162. -/
  | gt
  /-- 0x12, R163. -/
  | slt
  /-- 0x13, R164. -/
  | sgt
  /-- 0x14, R165. -/
  | eq
  /-- 0x15, R166. -/
  | iszero
  /-- 0x16, R171. -/
  | and
  /-- 0x17, R172. -/
  | or
  /-- 0x18, R173. -/
  | xor
  /-- 0x19, R174. -/
  | not
  /-- 0x1A, R175. -/
  | byte
  /-- 0x1B, R176. -/
  | shl
  /-- 0x1C, R177. -/
  | shr
  /-- 0x1D, R178. -/
  | sar
  /-- 0x51, R193. -/
  | mload
  /-- 0x52, R191. -/
  | mstore
  /-- 0x53, R192. -/
  | mstore8
  /-- 0x59, R194. -/
  | msize
  /-- 0x5F, R106: no immediate byte. -/
  | push0
  /-- 0x60, R107: 1 immediate byte. -/
  | push1 (imm : Word)
  /-- 0x61, R108: 2 immediate bytes. -/
  | push2 (imm : Word)
  /-- 0x62, R109: 3 immediate bytes. -/
  | push3 (imm : Word)
  /-- 0x63, R110: 4 immediate bytes. -/
  | push4 (imm : Word)
  /-- 0x64, R111: 5 immediate bytes. -/
  | push5 (imm : Word)
  /-- 0x65, R112: 6 immediate bytes. -/
  | push6 (imm : Word)
  /-- 0x66, R113: 7 immediate bytes. -/
  | push7 (imm : Word)
  /-- 0x67, R114: 8 immediate bytes. -/
  | push8 (imm : Word)
  /-- 0x68, R115: 9 immediate bytes. -/
  | push9 (imm : Word)
  /-- 0x69, R116: 10 immediate bytes. -/
  | push10 (imm : Word)
  /-- 0x6A, R117: 11 immediate bytes. -/
  | push11 (imm : Word)
  /-- 0x6B, R118: 12 immediate bytes. -/
  | push12 (imm : Word)
  /-- 0x6C, R119: 13 immediate bytes. -/
  | push13 (imm : Word)
  /-- 0x6D, R120: 14 immediate bytes. -/
  | push14 (imm : Word)
  /-- 0x6E, R121: 15 immediate bytes. -/
  | push15 (imm : Word)
  /-- 0x6F, R122: 16 immediate bytes. -/
  | push16 (imm : Word)
  /-- 0x70, R123: 17 immediate bytes. -/
  | push17 (imm : Word)
  /-- 0x71, R124: 18 immediate bytes. -/
  | push18 (imm : Word)
  /-- 0x72, R125: 19 immediate bytes. -/
  | push19 (imm : Word)
  /-- 0x73, R126: 20 immediate bytes. -/
  | push20 (imm : Word)
  /-- 0x74, R127: 21 immediate bytes. -/
  | push21 (imm : Word)
  /-- 0x75, R128: 22 immediate bytes. -/
  | push22 (imm : Word)
  /-- 0x76, R129: 23 immediate bytes. -/
  | push23 (imm : Word)
  /-- 0x77, R130: 24 immediate bytes. -/
  | push24 (imm : Word)
  /-- 0x78, R131: 25 immediate bytes. -/
  | push25 (imm : Word)
  /-- 0x79, R132: 26 immediate bytes. -/
  | push26 (imm : Word)
  /-- 0x7A, R133: 27 immediate bytes. -/
  | push27 (imm : Word)
  /-- 0x7B, R134: 28 immediate bytes. -/
  | push28 (imm : Word)
  /-- 0x7C, R135: 29 immediate bytes. -/
  | push29 (imm : Word)
  /-- 0x7D, R136: 30 immediate bytes. -/
  | push30 (imm : Word)
  /-- 0x7E, R137: 31 immediate bytes. -/
  | push31 (imm : Word)
  /-- 0x7F, R138: 32 immediate bytes. -/
  | push32 (imm : Word)
  deriving DecidableEq, Repr

end Sys2Proof
end

