-- ==== Sys2Proof/WellFormed.lean ====
section
/-! DEFINITION. When a term of `Instr` stands for an instruction that has an encoding: the immediate of a push of
size n is below 256^n (30_encoding.md R83, R90). -/

namespace Sys2Proof

/-- The word fits in n bytes. -/
def fitsBytes (n : Nat) (v : Word) : Bool := decide (v.toNat < 256 ^ n)

/-- The immediate of a push fits its size; every other instruction is its opcode byte alone (R81, R82). -/
def Instr.wellFormed : Instr → Bool
  | .add => true
  | .mul => true
  | .sub => true
  | .div => true
  | .sdiv => true
  | .mod => true
  | .smod => true
  | .addmod => true
  | .mulmod => true
  | .exp => true
  | .signextend => true
  | .lt => true
  | .gt => true
  | .slt => true
  | .sgt => true
  | .eq => true
  | .iszero => true
  | .and => true
  | .or => true
  | .xor => true
  | .not => true
  | .byte => true
  | .shl => true
  | .shr => true
  | .sar => true
  | .mload => true
  | .mstore => true
  | .mstore8 => true
  | .msize => true
  | .push0 => true
  | .push1 imm => fitsBytes 1 imm
  | .push2 imm => fitsBytes 2 imm
  | .push3 imm => fitsBytes 3 imm
  | .push4 imm => fitsBytes 4 imm
  | .push5 imm => fitsBytes 5 imm
  | .push6 imm => fitsBytes 6 imm
  | .push7 imm => fitsBytes 7 imm
  | .push8 imm => fitsBytes 8 imm
  | .push9 imm => fitsBytes 9 imm
  | .push10 imm => fitsBytes 10 imm
  | .push11 imm => fitsBytes 11 imm
  | .push12 imm => fitsBytes 12 imm
  | .push13 imm => fitsBytes 13 imm
  | .push14 imm => fitsBytes 14 imm
  | .push15 imm => fitsBytes 15 imm
  | .push16 imm => fitsBytes 16 imm
  | .push17 imm => fitsBytes 17 imm
  | .push18 imm => fitsBytes 18 imm
  | .push19 imm => fitsBytes 19 imm
  | .push20 imm => fitsBytes 20 imm
  | .push21 imm => fitsBytes 21 imm
  | .push22 imm => fitsBytes 22 imm
  | .push23 imm => fitsBytes 23 imm
  | .push24 imm => fitsBytes 24 imm
  | .push25 imm => fitsBytes 25 imm
  | .push26 imm => fitsBytes 26 imm
  | .push27 imm => fitsBytes 27 imm
  | .push28 imm => fitsBytes 28 imm
  | .push29 imm => fitsBytes 29 imm
  | .push30 imm => fitsBytes 30 imm
  | .push31 imm => fitsBytes 31 imm
  | .push32 imm => fitsBytes 32 imm

end Sys2Proof
end

