-- ==== Sys2Proof/Decode.lean ====
section
/-! DEFINITION. Decode and encode (30_encoding.md): byte order, the opcode map of R85, the decoder (total on any bytes,
rejecting by name), the encoder, and the pseudo-instruction `PUSH v` of R91. -/

namespace Sys2Proof

/-- `be(b0, ..., b(n-1))`: the big-endian value of a list of bytes, `be() = 0` (00_scope.md R12). -/
def be : List Byte → Nat
  | [] => 0
  | b :: bs => b.toNat * 256 ^ bs.length + be bs

/-- `bytes_be(v, n)`: the low n bytes of v, most significant first (00_scope.md R12, 20_memory.md R59). -/
def bytesBe (v : Nat) : Nat → List Byte
  | 0 => []
  | n + 1 => BitVec.ofNat 8 (v / 256 ^ n) :: bytesBe v n

/-- The first n bytes of a list; where the list ends earlier the missing bytes, which are the low-order ones, read as
zero (40_dispatch_and_push.md R105, the ZERO_PAD line). Whether such an immediate may be used at all is decided by
the push itself, from `PUSH_PAST_END`. -/
def takePad : Nat → List Byte → List Byte
  | 0, _ => []
  | n + 1, [] => 0 :: takePad n []
  | n + 1, b :: bs => b :: takePad n bs

/-- How many immediate bytes follow the opcode byte of an operation (R82, R84). -/
def Op.immSize : Op → Nat
  | .add => 0
  | .mul => 0
  | .sub => 0
  | .div => 0
  | .sdiv => 0
  | .mod => 0
  | .smod => 0
  | .addmod => 0
  | .mulmod => 0
  | .exp => 0
  | .signextend => 0
  | .lt => 0
  | .gt => 0
  | .slt => 0
  | .sgt => 0
  | .eq => 0
  | .iszero => 0
  | .and => 0
  | .or => 0
  | .xor => 0
  | .not => 0
  | .byte => 0
  | .shl => 0
  | .shr => 0
  | .sar => 0
  | .mload => 0
  | .mstore => 0
  | .mstore8 => 0
  | .msize => 0
  | .push0 => 0
  | .push1 => 1
  | .push2 => 2
  | .push3 => 3
  | .push4 => 4
  | .push5 => 5
  | .push6 => 6
  | .push7 => 7
  | .push8 => 8
  | .push9 => 9
  | .push10 => 10
  | .push11 => 11
  | .push12 => 12
  | .push13 => 13
  | .push14 => 14
  | .push15 => 15
  | .push16 => 16
  | .push17 => 17
  | .push18 => 18
  | .push19 => 19
  | .push20 => 20
  | .push21 => 21
  | .push22 => 22
  | .push23 => 23
  | .push24 => 24
  | .push25 => 25
  | .push26 => 26
  | .push27 => 27
  | .push28 => 28
  | .push29 => 29
  | .push30 => 30
  | .push31 => 31
  | .push32 => 32

/-- The instruction an operation makes with the value of its immediate bytes. -/
def Op.instr (o : Op) (imm : Word) : Instr :=
  match o with
  | .add => .add
  | .mul => .mul
  | .sub => .sub
  | .div => .div
  | .sdiv => .sdiv
  | .mod => .mod
  | .smod => .smod
  | .addmod => .addmod
  | .mulmod => .mulmod
  | .exp => .exp
  | .signextend => .signextend
  | .lt => .lt
  | .gt => .gt
  | .slt => .slt
  | .sgt => .sgt
  | .eq => .eq
  | .iszero => .iszero
  | .and => .and
  | .or => .or
  | .xor => .xor
  | .not => .not
  | .byte => .byte
  | .shl => .shl
  | .shr => .shr
  | .sar => .sar
  | .mload => .mload
  | .mstore => .mstore
  | .mstore8 => .mstore8
  | .msize => .msize
  | .push0 => .push0
  | .push1 => .push1 imm
  | .push2 => .push2 imm
  | .push3 => .push3 imm
  | .push4 => .push4 imm
  | .push5 => .push5 imm
  | .push6 => .push6 imm
  | .push7 => .push7 imm
  | .push8 => .push8 imm
  | .push9 => .push9 imm
  | .push10 => .push10 imm
  | .push11 => .push11 imm
  | .push12 => .push12 imm
  | .push13 => .push13 imm
  | .push14 => .push14 imm
  | .push15 => .push15 imm
  | .push16 => .push16 imm
  | .push17 => .push17 imm
  | .push18 => .push18 imm
  | .push19 => .push19 imm
  | .push20 => .push20 imm
  | .push21 => .push21 imm
  | .push22 => .push22 imm
  | .push23 => .push23 imm
  | .push24 => .push24 imm
  | .push25 => .push25 imm
  | .push26 => .push26 imm
  | .push27 => .push27 imm
  | .push28 => .push28 imm
  | .push29 => .push29 imm
  | .push30 => .push30 imm
  | .push31 => .push31 imm
  | .push32 => .push32 imm

/-- The operation of an instruction. -/
def Instr.op : Instr → Op
  | .add => .add
  | .mul => .mul
  | .sub => .sub
  | .div => .div
  | .sdiv => .sdiv
  | .mod => .mod
  | .smod => .smod
  | .addmod => .addmod
  | .mulmod => .mulmod
  | .exp => .exp
  | .signextend => .signextend
  | .lt => .lt
  | .gt => .gt
  | .slt => .slt
  | .sgt => .sgt
  | .eq => .eq
  | .iszero => .iszero
  | .and => .and
  | .or => .or
  | .xor => .xor
  | .not => .not
  | .byte => .byte
  | .shl => .shl
  | .shr => .shr
  | .sar => .sar
  | .mload => .mload
  | .mstore => .mstore
  | .mstore8 => .mstore8
  | .msize => .msize
  | .push0 => .push0
  | .push1 _ => .push1
  | .push2 _ => .push2
  | .push3 _ => .push3
  | .push4 _ => .push4
  | .push5 _ => .push5
  | .push6 _ => .push6
  | .push7 _ => .push7
  | .push8 _ => .push8
  | .push9 _ => .push9
  | .push10 _ => .push10
  | .push11 _ => .push11
  | .push12 _ => .push12
  | .push13 _ => .push13
  | .push14 _ => .push14
  | .push15 _ => .push15
  | .push16 _ => .push16
  | .push17 _ => .push17
  | .push18 _ => .push18
  | .push19 _ => .push19
  | .push20 _ => .push20
  | .push21 _ => .push21
  | .push22 _ => .push22
  | .push23 _ => .push23
  | .push24 _ => .push24
  | .push25 _ => .push25
  | .push26 _ => .push26
  | .push27 _ => .push27
  | .push28 _ => .push28
  | .push29 _ => .push29
  | .push30 _ => .push30
  | .push31 _ => .push31
  | .push32 _ => .push32

/-- The immediate of an instruction; 0 for one that has no immediate bytes. -/
def Instr.imm : Instr → Word
  | .add => 0
  | .mul => 0
  | .sub => 0
  | .div => 0
  | .sdiv => 0
  | .mod => 0
  | .smod => 0
  | .addmod => 0
  | .mulmod => 0
  | .exp => 0
  | .signextend => 0
  | .lt => 0
  | .gt => 0
  | .slt => 0
  | .sgt => 0
  | .eq => 0
  | .iszero => 0
  | .and => 0
  | .or => 0
  | .xor => 0
  | .not => 0
  | .byte => 0
  | .shl => 0
  | .shr => 0
  | .sar => 0
  | .mload => 0
  | .mstore => 0
  | .mstore8 => 0
  | .msize => 0
  | .push0 => 0
  | .push1 imm => imm
  | .push2 imm => imm
  | .push3 imm => imm
  | .push4 imm => imm
  | .push5 imm => imm
  | .push6 imm => imm
  | .push7 imm => imm
  | .push8 imm => imm
  | .push9 imm => imm
  | .push10 imm => imm
  | .push11 imm => imm
  | .push12 imm => imm
  | .push13 imm => imm
  | .push14 imm => imm
  | .push15 imm => imm
  | .push16 imm => imm
  | .push17 imm => imm
  | .push18 imm => imm
  | .push19 imm => imm
  | .push20 imm => imm
  | .push21 imm => imm
  | .push22 imm => imm
  | .push23 imm => imm
  | .push24 imm => imm
  | .push25 imm => imm
  | .push26 imm => imm
  | .push27 imm => imm
  | .push28 imm => imm
  | .push29 imm => imm
  | .push30 imm => imm
  | .push31 imm => imm
  | .push32 imm => imm

/-- How many immediate bytes an instruction has. -/
def Instr.immSize (i : Instr) : Nat := i.op.immSize

/-- R85, the arithmetic rows. -/
def arithmeticRows : OpcodeMap :=
  [(0x01, .add), (0x02, .mul), (0x03, .sub), (0x04, .div), (0x05, .sdiv),
   (0x06, .mod), (0x07, .smod), (0x08, .addmod), (0x09, .mulmod), (0x0A, .exp),
   (0x0B, .signextend)]

/-- R85, the comparison and bitwise rows. -/
def comparisonBitwiseRows : OpcodeMap :=
  [(0x10, .lt), (0x11, .gt), (0x12, .slt), (0x13, .sgt), (0x14, .eq),
   (0x15, .iszero), (0x16, .and), (0x17, .or), (0x18, .xor), (0x19, .not),
   (0x1A, .byte), (0x1B, .shl), (0x1C, .shr), (0x1D, .sar)]

/-- R85, the memory rows. -/
def memoryRows : OpcodeMap :=
  [(0x51, .mload), (0x52, .mstore), (0x53, .mstore8), (0x59, .msize)]

/-- R85, the rows of `PUSH0` to `PUSH10`. -/
def pushLowRows : OpcodeMap :=
  [(0x5F, .push0), (0x60, .push1), (0x61, .push2), (0x62, .push3), (0x63, .push4),
   (0x64, .push5), (0x65, .push6), (0x66, .push7), (0x67, .push8), (0x68, .push9),
   (0x69, .push10)]

/-- R85, the rows of `PUSH11` to `PUSH21`. -/
def pushMidRows : OpcodeMap :=
  [(0x6A, .push11), (0x6B, .push12), (0x6C, .push13), (0x6D, .push14), (0x6E, .push15),
   (0x6F, .push16), (0x70, .push17), (0x71, .push18), (0x72, .push19), (0x73, .push20),
   (0x74, .push21)]

/-- R85, the rows of `PUSH22` to `PUSH32`. -/
def pushHighRows : OpcodeMap :=
  [(0x75, .push22), (0x76, .push23), (0x77, .push24), (0x78, .push25), (0x79, .push26),
   (0x7A, .push27), (0x7B, .push28), (0x7C, .push29), (0x7D, .push30), (0x7E, .push31),
   (0x7F, .push32)]

/-- The default `OPCODE_MAP`: the 62 rows of R85 (D1; the source itself shows only 0x60 and 0x52, R86). -/
def defaultOpcodeMap : OpcodeMap :=
  arithmeticRows ++ comparisonBitwiseRows ++ memoryRows ++ pushLowRows ++ pushMidRows ++ pushHighRows

/-- The operation a byte selects, if any (R101, R87). -/
def opOfByte (b : Byte) : OpcodeMap → Option Op
  | [] => none
  | row :: rows => if row.1 = b then some row.2 else opOfByte b rows

/-- The byte that selects an operation, if any. -/
def byteOfOp (o : Op) : OpcodeMap → Option Byte
  | [] => none
  | row :: rows => if row.2 = o then some row.1 else byteOfOp o rows

/-- What the decoder reads from a list of bytes. -/
inductive Decoded where
  /-- An instruction, its immediate read by `takePad`. -/
  | instr (i : Instr)
  /-- The opcode byte is in no row of the opcode map (30_encoding.md R87). -/
  | invalidOpcode (b : Byte)
  /-- There is no byte to decode (40_dispatch_and_push.md R100). -/
  | endOfCode
  deriving DecidableEq, Repr

/-- The decoder: the length is told by the opcode byte alone (R84); immediate bytes are big-endian, zero-extended to a
word (R83) and never decoded as opcodes. -/
def decode (m : OpcodeMap) : List Byte → Decoded
  | [] => .endOfCode
  | b :: bs =>
    match opOfByte b m with
    | none => .invalidOpcode b
    | some o => .instr (o.instr (BitVec.ofNat 256 (be (takePad o.immSize bs))))

/-- The encoder: the opcode byte, then the immediate as n big-endian bytes (R81, R82, R90); none where the map has no
byte for the operation. -/
def encode (m : OpcodeMap) (i : Instr) : Option (List Byte) :=
  match byteOfOp i.op m with
  | none => none
  | some b => some (b :: bytesBe i.imm.toNat i.immSize)

/-- The operation of the push of size n, for n from 0 to 32 (R105). -/
def pushOp : Nat → Op
  | 0 => .push0
  | 1 => .push1
  | 2 => .push2
  | 3 => .push3
  | 4 => .push4
  | 5 => .push5
  | 6 => .push6
  | 7 => .push7
  | 8 => .push8
  | 9 => .push9
  | 10 => .push10
  | 11 => .push11
  | 12 => .push12
  | 13 => .push13
  | 14 => .push14
  | 15 => .push15
  | 16 => .push16
  | 17 => .push17
  | 18 => .push18
  | 19 => .push19
  | 20 => .push20
  | 21 => .push21
  | 22 => .push22
  | 23 => .push23
  | 24 => .push24
  | 25 => .push25
  | 26 => .push26
  | 27 => .push27
  | 28 => .push28
  | 29 => .push29
  | 30 => .push30
  | 31 => .push31
  | _ => .push32

/-- The least number of bytes that hold v, looked for among the first `fuel`: 0 for v = 0 (R91). -/
def leastBytes (v : Nat) : Nat → Nat
  | 0 => 0
  | fuel + 1 => if v < 256 ^ fuel then leastBytes v fuel else fuel + 1

/-- The pseudo-instruction `PUSH v` of R91: `PUSH0` for v = 0, else `PUSHn v` with the least n that holds v. -/
def assemblePush (v : Word) : Instr := (pushOp (leastBytes v.toNat 32)).instr v

/-- The pseudo-instruction `.byte 0xNN` of R91 places one raw byte. -/
def assembleByte (b : Byte) : List Byte := [b]

/-- The low n bytes of a number, least significant first: the order in which spec/opcode_table.json numbers the bits
of an instruction's bytes. -/
def leBytes : Nat → Nat → List Byte
  | 0, _ => []
  | n + 1, w => BitVec.ofNat 8 w :: leBytes n (w / 256)

/-- The bytes of an instruction given as the table numbers its bits: every bit above `nbits` is 0, up to the longest
instruction (33 bytes, R80). -/
def tableBytes (nbits w : Nat) : List Byte := leBytes 33 (w % 2 ^ nbits)

/-- The instruction the decoder reads, under the default opcode map, from an instruction whose bits are w. -/
def decodeTableWord (nbits w : Nat) : Option Instr :=
  match decode defaultOpcodeMap (tableBytes nbits w) with
  | .instr i => some i
  | .invalidOpcode _ => none
  | .endOfCode => none

end Sys2Proof
end

