-- ==== Sys2Proof/Machine/Params.lean ====
section
/-! DEFINITION. The instance of the parameters that `State.reset` has: every default the spec names (00_scope.md R6),
and `unbounded` for the three capacities, for which it names none (assumptions 1 to 3). -/

namespace Sys2Proof.Machine

/-- A number within a capacity; `none` is the spec's `unbounded`. -/
def within (n : Nat) : Option Nat → Bool
  | none => true
  | some c => decide (n ≤ c)

/-- The fault codes of 60_exceptions.md R201 (D16). -/
def defaultFaultCodes : FaultCodes where
  stackUnderflow := 1
  invalidOpcode := 2
  stackOverflow := 3
  memoryLimit := 4
  truncatedCode := 5

/-- The defaults of R6: `OPCODE_MAP` of R85 (D1), `GROWTH_UNIT = 1` (D5), `SUB_ORDER = FIRST_MINUS_SECOND` (D6),
`SIGNED_MODE = TWOS_COMPLEMENT` (D8), `PUSH_PAST_END = FAULT` (D10), the fault codes of R201 (D16); the capacities
unbounded (D2, D3, D4: DESIGN CHOICE, assumption 2). -/
def defaultConfig : Config where
  opcodeMap := defaultOpcodeMap
  stackCap := none
  memCap := none
  codeCap := none
  growthUnit := 1
  subOrder := .firstMinusSecond
  signedMode := .twosComplement
  pushPastEnd := .fault
  faultCodes := defaultFaultCodes

end Sys2Proof.Machine
end

