-- ==== Sys2Proof/Machine/State.lean ====
section
/-! DEFINITION. The state of the CORE (10_state.md), whole and as plain data, the reasons a step can stop, and the
state after reset (R35, R230). The engine has no general registers, no flags and no mode (R20, R32, R211). -/

namespace Sys2Proof.Machine

/-- `STATUS`, the engine's phase (R26, R233). -/
inductive Status where
  | idle | running | done | fault
  deriving DecidableEq, Repr

/-- `FAULT_KIND`, the cause of a halt (R26, R201); `noFault` is the table's code 0. -/
inductive FaultKind where
  | noFault | stackUnderflow | invalidOpcode | stackOverflow | memoryLimit | truncatedCode
  deriving DecidableEq, Repr

/-- The bytes of Memory that are not zero, as (offset, byte) pairs. In the canonical form (`Memory.wf`) the offsets
rise strictly and no byte is zero; an offset that is not listed reads as zero (R25, R56). -/
abbrev Memory := List Host.Cell

/-- The reasons a step of the model can stop without a next state. The five faults of the spec are NOT here: raising
one is a next state with `STATUS = FAULT` (60_exceptions.md R207). -/
inductive Fault where
  /-- Raised by `memRead` and `memWrite` where the range is not inside the Memory, which R58 and R59 require and
  every caller establishes by `memGrow`. It can be reached only in a state whose `GROWTH_UNIT` is 0, which is no
  instance of the spec. Safe. -/
  | outsideMemory
  deriving DecidableEq, Repr

/-- The reasons a step can be refused. No step of this model is. -/
inductive Refusal where
  /-- Raised by no arm of `exec`: every instruction of the table has its meaning. Safe. -/
  | notModelled (mnemonic : String)
  deriving DecidableEq, Repr

structure State where
  /-- The parameters of this instance (R6): fixed, no step and no host operation changes them (assumption 1). -/
  cfg : Config
  /-- Code, byte 0 first; `CODE_LEN` is its length (R22). -/
  code : List Byte
  /-- Whether the host has loaded a code since the last reset, which `START` requires (R231, assumption 6). -/
  codeLoaded : Bool
  /-- The program counter, a byte index into Code (R21). -/
  pc : Nat
  /-- The operand stack, TOP FIRST: `stack[k]` is the spec's `S[k]`; `SP` is its length (R23, R24, assumption 11). -/
  stack : List Word
  /-- `MEM_LEN`, the length of Memory in bytes (R25). -/
  memLen : Nat
  /-- The bytes of Memory (R25). -/
  mem : Memory
  /-- `STATUS` (R26). -/
  status : Status
  /-- `FAULT_KIND` (R26). -/
  faultKind : FaultKind
  /-- `FAULT_PC` (R26). -/
  faultPc : Nat
  /-- `FAULT_INFO` (R26). -/
  faultInfo : Byte
  /-- The MODEL'S OWN field: how many free values of `Config.freeCode` have been taken (assumption 5). -/
  freeCount : Nat
  deriving DecidableEq, Repr

/-- What a step or an instruction answers. -/
abbrev Result := Host.Outcome State Fault Refusal

/-- The state after reset, R35 and R230. Code is unspecified until the host loads it: it is empty and marked as not
loaded here (DESIGN CHOICE, assumption 4). -/
def State.reset : State where
  cfg := defaultConfig
  code := []
  codeLoaded := false
  pc := 0
  stack := []
  memLen := 0
  mem := []
  status := .idle
  faultKind := .noFault
  faultPc := 0
  faultInfo := 0
  freeCount := 0

end Sys2Proof.Machine
end

