-- ==== Sys2Proof/Machine/Ops.lean ====
section
/-! DEFINITION. The named operations over the state: completing an instruction, raising a fault (60_exceptions.md R207),
the room check, and the Memory primitives `MemGrow`, `MemRead` and `MemWrite` (20_memory.md R56, R58, R59). -/

namespace Sys2Proof.Machine

/-! ### Code, pc and stack -/

/-- `SP`, the number of words on the stack (R24). -/
def State.sp (s : State) : Nat := s.stack.length

/-- `CODE_LEN` (R22). -/
def State.codeLen (s : State) : Nat := s.code.length

/-- The state with another stack. -/
def State.withStack (st : List Word) (s : State) : State := { s with stack := st }

/-- The pc moved on by n bytes of Code (R101, R105). -/
def State.advance (n : Nat) (s : State) : State := { s with pc := s.pc + n }

/-- The state with another Memory of length len. -/
def State.withMemory (m : Memory) (len : Nat) (s : State) : State := { s with mem := m, memLen := len }

/-- An instruction of `n` immediate bytes completes: it leaves the stack `st` and the pc behind the instruction
(R101, R105). -/
def complete (n : Nat) (st : List Word) (s : State) : Result := .next ((s.withStack st).advance (1 + n))

/-! ### Raising a fault and ending a run -/

/-- What a fault does (R207). `s` is the state BEFORE the instruction, whose opcode byte is at `s.pc`: Stack and Memory
stay as they were, the pc stands one past the opcode byte, and the status block records the cause and the index. -/
def raise (k : FaultKind) (info : Byte) (s : State) : State :=
  { s with pc := s.pc + 1, status := .fault, faultKind := k, faultPc := s.pc, faultInfo := info }

/-- An instruction raises a fault other than `InvalidOpcode`: `FAULT_INFO` is 0 (R201). -/
def takeFault (k : FaultKind) (s : State) : Result := .next (raise k 0 s)

/-- Decode raises `InvalidOpcode`: `FAULT_INFO` is the offending byte (R203). -/
def takeInvalid (b : Byte) (s : State) : Result := .next (raise .invalidOpcode b s)

/-- The run ends normally: nothing but `STATUS` changes (R100). -/
def finish (s : State) : Result := .next { s with status := .done }

/-- In `IDLE`, `DONE` and `FAULT` the engine takes no step; the state stays as it is (R233, R210, R36,
assumption 7). -/
def stay (s : State) : Result := .next s

/-- What stands at the pc (R100, R101): the end of Code, an invalid byte, or an instruction. -/
def fetch (s : State) : Decoded := decode s.cfg.opcodeMap (s.code.drop s.pc)

/-- `room()` does not raise: one more word fits the stack RAM (R30). -/
def State.hasRoom (s : State) : Bool := within (s.sp + 1) s.cfg.stackCap

/-! ### Memory as data -/

/-- The byte at an offset; one that is not listed reads as zero (R25). -/
def Memory.get (a : Nat) : Memory → Byte
  | [] => 0
  | c :: rest => if c.1 = a then c.2 else Memory.get a rest

/-- The Memory with the byte v at offset a, kept in canonical form. -/
def Memory.set (a : Nat) (v : Byte) : Memory → Memory
  | [] => if v = 0 then [] else [(a, v)]
  | c :: rest =>
    if c.1 < a then c :: Memory.set a v rest
    else if c.1 = a then (if v = 0 then rest else (a, v) :: rest)
    else if v = 0 then c :: rest
    else (a, v) :: c :: rest

/-- The cells have strictly rising offsets from `lo` on, and no byte of them is zero. -/
def Memory.risingFrom : Nat → Memory → Bool
  | _, [] => true
  | lo, c :: rest => decide (lo ≤ c.1) && (c.2 != 0) && Memory.risingFrom (c.1 + 1) rest

/-- The canonical form: equal memories are equal lists. -/
def Memory.wf (m : Memory) : Bool := Memory.risingFrom 0 m

/-- Every cell lies below an offset. -/
def Memory.allBelow (n : Nat) : Memory → Bool
  | [] => true
  | c :: rest => decide (c.1 < n) && Memory.allBelow n rest

/-- The cells below an offset. -/
def Memory.below (n : Nat) (m : Memory) : Memory := m.filter fun c => decide (c.1 < n)

/-- The n bytes from offset a on, lowest offset first. -/
def Memory.getBytes (m : Memory) (a : Nat) : Nat → List Byte
  | 0 => []
  | n + 1 => m.get a :: Memory.getBytes m (a + 1) n

/-- The bytes written one after the other from offset a on. -/
def Memory.setBytes (a : Nat) : List Byte → Memory → Memory
  | [], m => m
  | b :: bs, m => Memory.setBytes (a + 1) bs (m.set a b)

/-! ### The Memory primitives -/

/-- `target` of R56: the end of the access rounded up to a multiple of the growth unit. The sum is not reduced
(R60). -/
def growTarget (unit a n : Nat) : Nat := (a + n + unit - 1) / unit * unit

/-- `new_len` of R56. -/
def grownLen (s : State) (a n : Nat) : Nat := max s.memLen (growTarget s.cfg.growthUnit a n)

/-- `MemGrow(addr, n)` of R56: none where it raises `MemoryLimit`, else the state with the Memory grown. Every byte
that the growth brings in reads as zero, whatever the RAM held (R25): cells at or above the old length are dropped. -/
def memGrow (a n : Nat) (s : State) : Option State :=
  let len := grownLen s a n
  if within len s.cfg.memCap then
    if s.memLen < len then some (s.withMemory (s.mem.below s.memLen) len) else some s
  else none

/-- `MemRead(addr, n)` of R58; none where the range is not inside the Memory. -/
def memRead (a n : Nat) (s : State) : Option Nat :=
  if a + n ≤ s.memLen then some (be (s.mem.getBytes a n)) else none

/-- `MemWrite(addr, n, v)` of R59; none where the range is not inside the Memory. -/
def memWrite (a n v : Nat) (s : State) : Option State :=
  if a + n ≤ s.memLen then some (s.withMemory (s.mem.setBytes a (bytesBe v n)) s.memLen) else none

end Sys2Proof.Machine
end

