-- ==== Sys2Proof/Machine/Flags.lean ====
section
/-! DEFINITION. The CORE has no flags of any kind (10_state.md R32): what another machine keeps in a flag, a comparison
pushes as a word that is exactly 1 or exactly 0 (42_comparison.md R160). -/

namespace Sys2Proof.Machine

/-- The word a comparison pushes (R160). -/
def truth (p : Bool) : Word := if p then 1 else 0

end Sys2Proof.Machine
end

