-- ==== Sys2Proof/Machine/Operands.lean ====
section
/-! DEFINITION. The readings of a word (00_scope.md R12) and the operand forms: every operand but a push's immediate
comes from the top of the stack (10_state.md R20), `a` first popped, `b` second, `c` third (00_scope.md R13). Each form
checks the depth before it pops (R29, 40_dispatch_and_push.md R102). -/

namespace Sys2Proof.Machine

/-- `u256(n)`: the word congruent to an integer modulo 2^256 (R12). -/
def u256 (n : Int) : Word := BitVec.ofInt 256 n

/-- `s256(x)`: the two's-complement reading of a word (R12). -/
def s256 (x : Word) : Int := if x.toNat < 2 ^ 255 then x.toNat else (x.toNat : Int) - 2 ^ 256

/-- Pops one word, pushes one: `need(1)` (R29). -/
def unary (f : Word → Word) (s : State) : Result :=
  match s.stack with
  | a :: st => complete 0 (f a :: st) s
  | [] => takeFault .stackUnderflow s

/-- Pops two words, pushes one: `need(2)`. -/
def binary (f : Word → Word → Word) (s : State) : Result :=
  match s.stack with
  | a :: b :: st => complete 0 (f a b :: st) s
  | _ => takeFault .stackUnderflow s

/-- Pops three words, pushes one: `need(3)`. -/
def ternary (f : Word → Word → Word → Word) (s : State) : Result :=
  match s.stack with
  | a :: b :: c :: st => complete 0 (f a b c :: st) s
  | _ => takeFault .stackUnderflow s

/-- Pops nothing, pushes one word, n immediate bytes: `room()` (R30). -/
def pushWord (n : Nat) (v : Word) (s : State) : Result :=
  if s.hasRoom then complete n (v :: s.stack) s else takeFault .stackOverflow s

/-- The general push of size n (R105): the immediate range check, then `room()`, then the push. Where the immediate
runs past the end of Code and `PUSH_PAST_END = ZERO_PAD`, the decoder has read the missing bytes as zero. -/
def pushImm (n : Nat) (v : Word) (s : State) : Result :=
  if s.codeLen < s.pc + 1 + n ∧ s.cfg.pushPastEnd = .fault then takeFault .truncatedCode s
  else pushWord n v s

/-- The two stores: pop the offset, then the value, and write n bytes, the low n bytes of the value (R191, R192).
The Memory is grown, at the offset read from the top of the stack, before anything is popped. -/
def storeBytes (n : Nat) (s : State) : Result :=
  match s.stack with
  | a :: b :: st =>
    match memGrow a.toNat n s with
    | none => takeFault .memoryLimit s
    | some grown =>
      match memWrite a.toNat n (b.toNat % 256 ^ n) grown with
      | none => .fault .outsideMemory
      | some written => complete 0 st written
  | _ => takeFault .stackUnderflow s

/-- The load: pop the offset, push the n bytes there as one big-endian word (R193). -/
def loadBytes (n : Nat) (s : State) : Result :=
  match s.stack with
  | a :: st =>
    match memGrow a.toNat n s with
    | none => takeFault .memoryLimit s
    | some grown =>
      match memRead a.toNat n grown with
      | none => .fault .outsideMemory
      | some v => complete 0 (u256 v :: st) grown
  | [] => takeFault .stackUnderflow s

end Sys2Proof.Machine
end

