-- ==== Sys2Proof/Machine/Arithmetic.lean ====
section
/-! DEFINITION. The eleven arithmetic opcodes (41_arithmetic.md). Each computes on mathematical integers and reduces
once at the end (R140). For divide and modulo the DIVISOR is popped first (R140, R144, D7). -/

namespace Sys2Proof.Machine

/-- R141. -/
def addWord (a b : Word) : Word := u256 (a.toNat + b.toNat)

/-- R142. -/
def mulWord (a b : Word) : Word := u256 (a.toNat * b.toNat)

/-- R143: the minuend is chosen by `SUB_ORDER`. -/
def subWord (o : SubOrder) (a b : Word) : Word :=
  match o with
  | .firstMinusSecond => u256 ((a.toNat : Int) - b.toNat)
  | .secondMinusFirst => u256 ((b.toNat : Int) - a.toNat)

/-- R144: floor(b / a), 0 for divisor 0. -/
def divWord (a b : Word) : Word := if a = 0 then 0 else u256 (b.toNat / a.toNat : Nat)

/-- R146: b mod a, 0 for divisor 0. -/
def modWord (a b : Word) : Word := if a = 0 then 0 else u256 (b.toNat % a.toNat : Nat)

/-- The signed quotient of R145, truncated toward zero. -/
def signedQuotient (n d : Int) : Int := n.sign * d.sign * (n.natAbs / d.natAbs : Nat)

/-- The signed remainder of R147, with the sign of the dividend. -/
def signedRemainder (n d : Int) : Int := n.sign * (n.natAbs % d.natAbs : Nat)

/-- R145: the reading of the words is chosen by `SIGNED_MODE`; 0 for divisor 0 in both. -/
def sdivWord (m : SignedMode) (a b : Word) : Word :=
  match m with
  | .twosComplement => if a = 0 then 0 else u256 (signedQuotient (s256 b) (s256 a))
  | .sourceUnsigned => divWord a b

/-- R147, chosen like R145. -/
def smodWord (m : SignedMode) (a b : Word) : Word :=
  match m with
  | .twosComplement => if a = 0 then 0 else u256 (signedRemainder (s256 b) (s256 a))
  | .sourceUnsigned => modWord a b

/-- R148: the sum is exact before the remainder is taken (D12). -/
def addmodWord (a b c : Word) : Word := if c = 0 then 0 else u256 ((a.toNat + b.toNat) % c.toNat : Nat)

/-- R149: the product is exact before the remainder is taken (D12). -/
def mulmodWord (a b c : Word) : Word := if c = 0 then 0 else u256 (a.toNat * b.toNat % c.toNat : Nat)

/-- Square-and-multiply on the low `fuel` bits of the exponent: the accumulator times base^exponent, modulo 2^256. -/
def powLoop : Nat → Nat → Nat → Nat → Nat
  | 0, _, _, acc => acc
  | fuel + 1, base, e, acc =>
    powLoop fuel (base * base % 2 ^ 256) (e / 2) (if e % 2 = 1 then acc * base % 2 ^ 256 else acc)

/-- R150: a ** b modulo 2^256, with a popped first; `x ** 0 = 1` (D13). Computed by square-and-multiply, as R150 says
an implementation does; `expWord_toNat` in Laws proves it equal to the power (assumption 16). -/
def expWord (a b : Word) : Word := u256 (powLoop 256 a.toNat b.toNat 1)

/-- The low t bits of a word, sign-extended from bit t - 1 (R151). -/
def extendLow (t : Nat) (b : Word) : Word :=
  if b.toNat % 2 ^ t / 2 ^ (t - 1) = 0 then u256 (b.toNat % 2 ^ t : Nat)
  else u256 (b.toNat % 2 ^ t + 2 ^ 256 - 2 ^ t : Nat)

/-- R151: a is the byte count, b the value; unchanged for a count of 32 or more. -/
def signextendWord (a b : Word) : Word := if 32 ≤ a.toNat then b else extendLow (8 * (a.toNat + 1)) b

/-- `ADD`, R141. -/
def execAdd (s : State) : Result := binary addWord s

/-- `MUL`, R142. -/
def execMul (s : State) : Result := binary mulWord s

/-- `SUB`, R143. -/
def execSub (s : State) : Result := binary (subWord s.cfg.subOrder) s

/-- `DIV`, R144. -/
def execDiv (s : State) : Result := binary divWord s

/-- `SDIV`, R145. -/
def execSdiv (s : State) : Result := binary (sdivWord s.cfg.signedMode) s

/-- `MOD`, R146. -/
def execMod (s : State) : Result := binary modWord s

/-- `SMOD`, R147. -/
def execSmod (s : State) : Result := binary (smodWord s.cfg.signedMode) s

/-- `ADDMOD`, R148. -/
def execAddmod (s : State) : Result := ternary addmodWord s

/-- `MULMOD`, R149. -/
def execMulmod (s : State) : Result := ternary mulmodWord s

/-- `EXP`, R150. -/
def execExp (s : State) : Result := binary expWord s

/-- `SIGNEXTEND`, R151. -/
def execSignextend (s : State) : Result := binary signextendWord s

end Sys2Proof.Machine
end

