-- ==== Sys2Proof/Machine/Bitwise.lean ====
section
/-! DEFINITION. The eight bitwise and shift opcodes (43_bitwise.md). An index or a shift amount is the word popped
FIRST and is compared whole, never reduced (R170, D14). -/

namespace Sys2Proof.Machine

/-- R175: byte index 0 is the most significant byte; 0 for an index of 32 or more. -/
def byteWord (a b : Word) : Word :=
  if 32 ≤ a.toNat then 0 else u256 (b.toNat / 2 ^ (8 * (31 - a.toNat)) % 256 : Nat)

/-- R176: b * 2^a modulo 2^256, which is 0 for every amount of 256 or more. -/
def shlWord (a b : Word) : Word := if 256 ≤ a.toNat then 0 else u256 (b.toNat * 2 ^ a.toNat)

/-- R177: floor(b / 2^a), which is 0 for every amount of 256 or more. -/
def shrWord (a b : Word) : Word := if 256 ≤ a.toNat then 0 else u256 (b.toNat / 2 ^ a.toNat : Nat)

/-- R178: chosen by `SIGNED_MODE`; in `TWOS_COMPLEMENT` the quotient rounds toward minus infinity and an amount of 256
or more leaves copies of the sign bit. -/
def sarWord (m : SignedMode) (a b : Word) : Word :=
  match m with
  | .twosComplement =>
    if 256 ≤ a.toNat then (if b.toNat / 2 ^ 255 = 0 then 0 else u256 (2 ^ 256 - 1))
    else u256 (Int.fdiv (s256 b) (2 ^ a.toNat))
  | .sourceUnsigned => shrWord a b

/-- `AND`, R171. -/
def execAnd (s : State) : Result := binary (fun a b => a &&& b) s

/-- `OR`, R172. -/
def execOr (s : State) : Result := binary (fun a b => a ||| b) s

/-- `XOR`, R173. -/
def execXor (s : State) : Result := binary (fun a b => a ^^^ b) s

/-- `NOT`, R174: 2^256 - 1 - a. -/
def execNot (s : State) : Result := unary (fun a => u256 (2 ^ 256 - 1 - a.toNat)) s

/-- `BYTE`, R175. -/
def execByte (s : State) : Result := binary byteWord s

/-- `SHL`, R176. -/
def execShl (s : State) : Result := binary shlWord s

/-- `SHR`, R177. -/
def execShr (s : State) : Result := binary shrWord s

/-- `SAR`, R178. -/
def execSar (s : State) : Result := binary (sarWord s.cfg.signedMode) s

end Sys2Proof.Machine
end

