-- ==== Sys2Proof/Machine/Comparison.lean ====
section
/-! DEFINITION. The six comparison opcodes (42_comparison.md). The ordered ones test `b OP a`: the word popped SECOND is
the left operand (R160). -/

namespace Sys2Proof.Machine

/-- `LT`, R161. -/
def execLt (s : State) : Result := binary (fun a b => truth (decide (b.toNat < a.toNat))) s

/-- `GT`, R162. -/
def execGt (s : State) : Result := binary (fun a b => truth (decide (b.toNat > a.toNat))) s

/-- `SLT`, R163: two's complement in every `SIGNED_MODE` (D9). -/
def execSlt (s : State) : Result := binary (fun a b => truth (decide (s256 b < s256 a))) s

/-- `SGT`, R164. -/
def execSgt (s : State) : Result := binary (fun a b => truth (decide (s256 b > s256 a))) s

/-- `EQ`, R165. -/
def execEq (s : State) : Result := binary (fun a b => truth (decide (a = b))) s

/-- `ISZERO`, R166. -/
def execIszero (s : State) : Result := unary (fun a => truth (decide (a = 0))) s

end Sys2Proof.Machine
end

