-- ==== Sys2Proof/Machine/MemoryOps.lean ====
section
/-! DEFINITION. The four memory opcodes (44_memory_ops.md). The offset is the word popped FIRST, used as it is (R190,
D15); nothing is aligned (20_memory.md R62) and no sum wraps (R60). -/

namespace Sys2Proof.Machine

/-- `MSTORE`, R191: 32 bytes, most significant first. -/
def execMstore (s : State) : Result := storeBytes 32 s

/-- `MSTORE8`, R192: the low 8 bits of the value. -/
def execMstore8 (s : State) : Result := storeBytes 1 s

/-- `MLOAD`, R193: 32 bytes; it grows the Memory like a store. -/
def execMload (s : State) : Result := loadBytes 32 s

/-- `MSIZE`, R194: the length of Memory; it grows nothing. -/
def execMsize (s : State) : Result := pushWord 0 (u256 s.memLen) s

end Sys2Proof.Machine
end

