-- ==== Sys2Proof/Machine/Push.lean ====
section
/-! DEFINITION. The 33 push opcodes (40_dispatch_and_push.md R105 to R138). The immediate is the value the decoder read
from the bytes that follow the opcode byte. -/

namespace Sys2Proof.Machine

/-- `PUSH0`, R106: it reads no immediate byte, so it is never truncated. -/
def execPush0 (s : State) : Result := pushWord 0 0 s

/-- `PUSH1`, R107. -/
def execPush1 (imm : Word) (s : State) : Result := pushImm 1 imm s

/-- `PUSH2`, R108. -/
def execPush2 (imm : Word) (s : State) : Result := pushImm 2 imm s

/-- `PUSH3`, R109. -/
def execPush3 (imm : Word) (s : State) : Result := pushImm 3 imm s

/-- `PUSH4`, R110. -/
def execPush4 (imm : Word) (s : State) : Result := pushImm 4 imm s

/-- `PUSH5`, R111. -/
def execPush5 (imm : Word) (s : State) : Result := pushImm 5 imm s

/-- `PUSH6`, R112. -/
def execPush6 (imm : Word) (s : State) : Result := pushImm 6 imm s

/-- `PUSH7`, R113. -/
def execPush7 (imm : Word) (s : State) : Result := pushImm 7 imm s

/-- `PUSH8`, R114. -/
def execPush8 (imm : Word) (s : State) : Result := pushImm 8 imm s

/-- `PUSH9`, R115. -/
def execPush9 (imm : Word) (s : State) : Result := pushImm 9 imm s

/-- `PUSH10`, R116. -/
def execPush10 (imm : Word) (s : State) : Result := pushImm 10 imm s

/-- `PUSH11`, R117. -/
def execPush11 (imm : Word) (s : State) : Result := pushImm 11 imm s

/-- `PUSH12`, R118. -/
def execPush12 (imm : Word) (s : State) : Result := pushImm 12 imm s

/-- `PUSH13`, R119. -/
def execPush13 (imm : Word) (s : State) : Result := pushImm 13 imm s

/-- `PUSH14`, R120. -/
def execPush14 (imm : Word) (s : State) : Result := pushImm 14 imm s

/-- `PUSH15`, R121. -/
def execPush15 (imm : Word) (s : State) : Result := pushImm 15 imm s

/-- `PUSH16`, R122. -/
def execPush16 (imm : Word) (s : State) : Result := pushImm 16 imm s

/-- `PUSH17`, R123. -/
def execPush17 (imm : Word) (s : State) : Result := pushImm 17 imm s

/-- `PUSH18`, R124. -/
def execPush18 (imm : Word) (s : State) : Result := pushImm 18 imm s

/-- `PUSH19`, R125. -/
def execPush19 (imm : Word) (s : State) : Result := pushImm 19 imm s

/-- `PUSH20`, R126. -/
def execPush20 (imm : Word) (s : State) : Result := pushImm 20 imm s

/-- `PUSH21`, R127. -/
def execPush21 (imm : Word) (s : State) : Result := pushImm 21 imm s

/-- `PUSH22`, R128. -/
def execPush22 (imm : Word) (s : State) : Result := pushImm 22 imm s

/-- `PUSH23`, R129. -/
def execPush23 (imm : Word) (s : State) : Result := pushImm 23 imm s

/-- `PUSH24`, R130. -/
def execPush24 (imm : Word) (s : State) : Result := pushImm 24 imm s

/-- `PUSH25`, R131. -/
def execPush25 (imm : Word) (s : State) : Result := pushImm 25 imm s

/-- `PUSH26`, R132. -/
def execPush26 (imm : Word) (s : State) : Result := pushImm 26 imm s

/-- `PUSH27`, R133. -/
def execPush27 (imm : Word) (s : State) : Result := pushImm 27 imm s

/-- `PUSH28`, R134. -/
def execPush28 (imm : Word) (s : State) : Result := pushImm 28 imm s

/-- `PUSH29`, R135. -/
def execPush29 (imm : Word) (s : State) : Result := pushImm 29 imm s

/-- `PUSH30`, R136. -/
def execPush30 (imm : Word) (s : State) : Result := pushImm 30 imm s

/-- `PUSH31`, R137. -/
def execPush31 (imm : Word) (s : State) : Result := pushImm 31 imm s

/-- `PUSH32`, R138. -/
def execPush32 (imm : Word) (s : State) : Result := pushImm 32 imm s

end Sys2Proof.Machine
end

