-- ==== Sys2Proof/Machine/HostPort.lean ====
section
/-! DEFINITION. The host interface at transaction level (70_reset_and_hazards.md R230 to R234): what the host may do
between the engine's steps, in which phases, and what it gets back. -/

namespace Sys2Proof.Machine

/-- The code of `STATUS` (R26). -/
def statusCode : Status → BitVec 2
  | .idle => 0
  | .running => 1
  | .done => 2
  | .fault => 3

/-- The code of `FAULT_KIND` (R201), taken from the fault codes of the instance (R6); "none" is 0 in every instance
(R26). -/
def faultCode (c : FaultCodes) : FaultKind → BitVec 3
  | .noFault => 0
  | .stackUnderflow => c.stackUnderflow
  | .invalidOpcode => c.invalidOpcode
  | .stackOverflow => c.stackOverflow
  | .memoryLimit => c.memoryLimit
  | .truncatedCode => c.truncatedCode

/-- What `READ_STATUS` hands over (R231). -/
structure StatusView where
  status : BitVec 2
  faultKind : BitVec 3
  faultPc : Nat
  faultInfo : Byte
  pc : Nat
  sp : Nat
  memLen : Nat
  codeLen : Nat
  deriving DecidableEq, Repr

/-- The host's operations (R231). -/
inductive HostOp where
  | reset
  | loadCode (bytes : List Byte)
  | start
  | readStatus
  | readStack (i : Nat)
  | readMem (i : Nat)
  deriving DecidableEq, Repr

/-- What the host gets back. -/
inductive HostReply where
  /-- The operation had its effect; nothing is handed over. -/
  | accepted
  | view (v : StatusView)
  | word (w : Word)
  | byte (b : Byte)
  /-- The operation is not allowed here (R231, 93_implementation_defined.md U12). -/
  | refused
  deriving DecidableEq, Repr

/-- An unspecified code: a free value, no longer than `CODE_CAP` (R230, R231, R22, assumption 5). -/
def unspecifiedCode (cfg : Config) (k : Nat) : List Byte :=
  match cfg.codeCap with
  | none => Config.freeCode k
  | some c => (Config.freeCode k).take c

/-- The state with the code store unspecified and no code loaded. -/
def State.forgetCode (s : State) : State :=
  { s with code := unspecifiedCode s.cfg s.freeCount, codeLoaded := false, freeCount := s.freeCount + 1 }

/-- `RESET`, allowed in any phase (R230): it abandons the run; whether it clears the code store is not specified. -/
def hostReset (s : State) : State :=
  { s with
    pc := 0, stack := [], memLen := 0, mem := [], status := .idle, faultKind := .noFault, faultPc := 0,
    faultInfo := 0 }.forgetCode

/-- `LOAD_CODE(bytes)`, allowed in `IDLE`; a code longer than `CODE_CAP` is refused and Code is left unspecified
(R231). -/
def hostLoadCode (bytes : List Byte) (s : State) : State × HostReply :=
  if s.status = .idle then
    if within bytes.length s.cfg.codeCap then ({ s with code := bytes, codeLoaded := true }, .accepted)
    else (s.forgetCode, .refused)
  else (s, .refused)

/-- `START`, allowed in `IDLE` after a `LOAD_CODE` (R231). -/
def hostStart (s : State) : State × HostReply :=
  if s.status = .idle ∧ s.codeLoaded = true then ({ s with status := .running }, .accepted) else (s, .refused)

/-- What `READ_STATUS` answers, in any phase (R231). -/
def statusView (s : State) : StatusView where
  status := statusCode s.status
  faultKind := faultCode s.cfg.faultCodes s.faultKind
  faultPc := s.faultPc
  faultInfo := s.faultInfo
  pc := s.pc
  sp := s.sp
  memLen := s.memLen
  codeLen := s.codeLen

/-- The run has ended, normally or by a fault. -/
def State.halted (s : State) : Bool := s.status = .done || s.status = .fault

/-- The final Stack, bottom first (R31, R234). -/
def finalStack (s : State) : List Word := s.stack.reverse

/-- The final Memory, offset 0 first (R234). -/
def finalMemory (s : State) : List Byte := s.mem.getBytes 0 s.memLen

/-- `READ_STACK(i)`, allowed once halted, for i below `SP`; index 0 is the bottom (R231, R31). -/
def readStack (i : Nat) (s : State) : HostReply :=
  if s.halted then
    match (finalStack s)[i]? with
    | some w => .word w
    | none => .refused
  else .refused

/-- `READ_MEM(i)`, allowed once halted, for i below `MEM_LEN` (R231). -/
def readMem (i : Nat) (s : State) : HostReply :=
  if s.halted = true ∧ i < s.memLen then .byte (s.mem.get i) else .refused

/-- One operation of the host: the state it leaves and what it answers (R231). The host acts before and after a run;
the only operation that has an effect while the engine runs is `RESET` (R7, R236). -/
def hostOp (o : HostOp) (s : State) : State × HostReply :=
  match o with
  | .reset => (hostReset s, .accepted)
  | .loadCode bytes => hostLoadCode bytes s
  | .start => hostStart s
  | .readStatus => (s, .view (statusView s))
  | .readStack i => (s, readStack i s)
  | .readMem i => (s, readMem i s)

/-- Bytes placed in a code from index p on; the other bytes stay, and bytes that did not exist before p are zero. -/
def placeBytes : Nat → List Byte → List Byte → List Byte
  | 0, bs, code => bs ++ code.drop bs.length
  | p + 1, bs, [] => 0 :: placeBytes p bs []
  | p + 1, bs, b :: code => b :: placeBytes p bs code

end Sys2Proof.Machine
end

