-- ==== Sys2Proof/Machine/Step.lean ====
section
/-! DEFINITION. One step of the engine (40_dispatch_and_push.md R100, R101; 70_reset_and_hazards.md R233). -/

namespace Sys2Proof.Machine

/-- While `STATUS = RUNNING`: the run ends at the end of Code, an invalid byte raises `InvalidOpcode`, and an
instruction is executed. In every other phase the engine takes no step and the state stays as it is. -/
def step (s : State) : Host.Outcome State Fault Refusal :=
  match s.status with
  | .idle => stay s
  | .running =>
    match fetch s with
    | .endOfCode => finish s
    | .invalidOpcode b => takeInvalid b s
    | .instr i => exec i s
  | .done => stay s
  | .fault => stay s

/-- The state with an instruction, given as spec/opcode_table.json numbers its bits, stored in Code at the pc, and the
engine running: what the host's `LOAD_CODE` and `START` set up (R232, assumption 17). -/
def State.withFetchWord (s : State) (nbits w : Nat) : State :=
  { s with code := placeBytes s.pc (tableBytes nbits w) s.code, codeLoaded := true, status := .running }

end Sys2Proof.Machine
end

