-- ==== Sys2Proof/Safety.lean ====
section
/-! DEFINITION. What a sound state of the CORE is, in the terms claims use: valid parameters, and the relations the spec
states between the fields of the state. Every step and every host operation keeps them. -/

namespace Sys2Proof.Machine

/-- Every byte and every operation has at most one row (30_encoding.md R86). -/
def mapValid (m : OpcodeMap) : Bool := decide ((m.map (·.1)).Nodup) && decide ((m.map (·.2)).Nodup)

/-- The code of every fault kind differs from every other and from 0, the code of "none" (60_exceptions.md R201).
DESIGN CHOICE (assumption 25): the codes 6 and 7, of which 10_state.md R26 says that they never occur, are allowed to an
instance that chooses its own fault codes (R6, D16); the spec does not say whether that sentence binds such an
instance. With the default codes they never occur. -/
def faultCodesValid (c : FaultCodes) : Bool :=
  decide ([0, c.stackUnderflow, c.invalidOpcode, c.stackOverflow, c.memoryLimit, c.truncatedCode].Nodup)

/-- The parameters are an instance the spec allows (00_scope.md R6). -/
def configValid (c : Config) : Bool :=
  mapValid c.opcodeMap && faultCodesValid c.faultCodes && decide (0 < c.growthUnit) &&
  (match c.stackCap with | none => true | some k => decide (0 < k)) &&
  (match c.memCap with | none => true | some k => decide (k < 2 ^ 256))

/-- `CODE_LEN <= CODE_CAP` (R22) and `SP <= STACK_CAP` (R24). -/
def storesFit (s : State) : Bool := within s.codeLen s.cfg.codeCap && within s.sp s.cfg.stackCap

/-- The Memory is canonical, lies below `MEM_LEN`, and its length is a multiple of `GROWTH_UNIT` within `MEM_CAP`
(R25). -/
def memorySound (s : State) : Bool :=
  s.mem.wf && s.mem.allBelow s.memLen && decide (s.memLen % s.cfg.growthUnit = 0) &&
  within s.memLen s.cfg.memCap

/-- `FAULT_KIND`, `FAULT_PC` and `FAULT_INFO` are zero (R26). -/
def noFaultRecord (s : State) : Bool :=
  decide (s.faultKind = .noFault) && decide (s.faultPc = 0) && decide (s.faultInfo = 0)

/-- What each phase says of the pc, the stores and the status block (R21, R26, R100, R207, R231, R233). -/
def phaseSound (s : State) : Bool :=
  match s.status with
  | .idle => noFaultRecord s && decide (s.pc = 0) && decide (s.stack = []) && decide (s.memLen = 0)
  | .running => noFaultRecord s && s.codeLoaded && decide (s.pc ≤ s.codeLen + 32)
  | .done => noFaultRecord s && s.codeLoaded && decide (s.codeLen ≤ s.pc) && decide (s.pc ≤ s.codeLen + 32)
  | .fault =>
    s.codeLoaded && decide (s.faultKind ≠ .noFault) && decide (s.faultPc < s.codeLen) &&
    decide (s.pc = s.faultPc + 1) && (decide (s.faultKind = .invalidOpcode) || decide (s.faultInfo = 0))

/-- A sound state. -/
def State.sound (s : State) : Bool := configValid s.cfg && storesFit s && memorySound s && phaseSound s

/-- The next state of an outcome, where it is one. -/
def nextState : Result → Option State
  | .next t => some t
  | .fault _ => none
  | .refused _ => none

end Sys2Proof.Machine
end

