-- ==== Sys2Proof/Certificates/Slice0/Obligations.lean ====
section
/-! DEFINITION. The statements for the provers, made from the numbered rules of spec/. Every result statement gives the
WHOLE next state, so it says what the instruction changes and that it changes nothing else; byte reads of Memory are
given through `Memory.get`. A statement about a parameter holds for every value of it. -/

namespace Sys2Proof.Claims

open Sys2Proof.Machine

/-- The state a fault leaves, R207 written out: Stack and Memory as before, the pc one past the opcode byte. -/
def faulted (k : FaultKind) (info : Byte) (s : State) : State :=
  { s with pc := s.pc + 1, status := .fault, faultKind := k, faultPc := s.pc, faultInfo := info }

/-- One more word fits the stack RAM (R30). -/
def HasRoom (s : State) : Prop := ∀ c, s.cfg.stackCap = some c → s.stack.length + 1 ≤ c

/-- Format F0 (R81): under every opcode map the instruction is its opcode byte alone. -/
def OneByte (i : Instr) : Prop := ∀ m bytes, encode m i = some bytes → bytes.length = 1

/-- An opcode that pops a and pushes a word w with r a w: it completes for every stack of depth 1 or more, changing
only the pc and the stack, and raises `StackUnderflow` for every other stack. -/
def PopsOne (i : Instr) (r : Word → Word → Prop) : Prop :=
  OneByte i ∧
  (∀ s a st, s.stack = a :: st →
    ∃ w, r a w ∧ exec i s = .next { s with pc := s.pc + 1, stack := w :: st }) ∧
  (∀ s, s.stack.length < 1 → exec i s = .next (faulted .stackUnderflow 0 s))

/-- An opcode that pops a, then b, and pushes a word w with r cfg a b w. -/
def PopsTwo (i : Instr) (r : Config → Word → Word → Word → Prop) : Prop :=
  OneByte i ∧
  (∀ s a b st, s.stack = a :: b :: st →
    ∃ w, r s.cfg a b w ∧ exec i s = .next { s with pc := s.pc + 1, stack := w :: st }) ∧
  (∀ s, s.stack.length < 2 → exec i s = .next (faulted .stackUnderflow 0 s))

/-- An opcode that pops a, then b, then c, and pushes a word w with r a b c w. -/
def PopsThree (i : Instr) (r : Word → Word → Word → Word → Prop) : Prop :=
  OneByte i ∧
  (∀ s a b c st, s.stack = a :: b :: c :: st →
    ∃ w, r a b c w ∧ exec i s = .next { s with pc := s.pc + 1, stack := w :: st }) ∧
  (∀ s, s.stack.length < 3 → exec i s = .next (faulted .stackUnderflow 0 s))

/-- The word 1 for true and the word 0 for false (R160). -/
def IsTruth (p : Prop) (w : Word) : Prop := (p → w = 1) ∧ (¬p → w = 0)

/-- The Memory length an access to [a, a+n) asks for (R56): the old length, or the end of the access rounded up to a
multiple of `GROWTH_UNIT`. The sum is not reduced. -/
def lengthAfter (s : State) (a n : Nat) : Nat :=
  max s.memLen ((a + n + s.cfg.growthUnit - 1) / s.cfg.growthUnit * s.cfg.growthUnit)

/-- A length the Memory may have (R25). -/
def LengthFits (s : State) (len : Nat) : Prop := ∀ c, s.cfg.memCap = some c → len ≤ c

/-- A store of n bytes: in a state with a sound Memory and a positive growth unit, with the offset a on top and the
value b below, it completes where the length fits, and raises `MemoryLimit` where it does not; with fewer than two
words it raises `StackUnderflow`. -/
def Stores (i : Instr) (n : Nat) : Prop :=
  OneByte i ∧
  (∀ s a b st, s.stack = a :: b :: st → memorySound s = true → 0 < s.cfg.growthUnit →
    LengthFits s (lengthAfter s a.toNat n) →
    ∃ m, exec i s = .next { s with pc := s.pc + 1, stack := st, mem := m, memLen := lengthAfter s a.toNat n } ∧
      m.wf = true ∧
      (∀ k, k < n → m.get (a.toNat + k) = BitVec.ofNat 8 (b.toNat / 256 ^ (n - 1 - k))) ∧
      (∀ x, (x < a.toNat ∨ a.toNat + n ≤ x) → m.get x = s.mem.get x) ∧
      (∀ x, s.memLen ≤ x → (x < a.toNat ∨ a.toNat + n ≤ x) → m.get x = 0)) ∧
  (∀ s a b st, s.stack = a :: b :: st → ¬LengthFits s (lengthAfter s a.toNat n) →
    exec i s = .next (faulted .memoryLimit 0 s)) ∧
  (∀ s, s.stack.length < 2 → exec i s = .next (faulted .stackUnderflow 0 s))

/-- The push of size n, read by the decoder as `i v` for the immediate value v, and selected by the operation o. -/
def Pushes (n : Nat) (o : Op) (i : Word → Instr) : Prop :=
  (∀ m v bytes, encode m (i v) = some bytes → ∃ b, bytes = b :: bytesBe v.toNat n) ∧
  (∀ s v, v.toNat < 256 ^ n → s.pc + 1 + n ≤ s.code.length ∨ s.cfg.pushPastEnd = .zeroPad → HasRoom s →
    exec (i v) s = .next { s with pc := s.pc + 1 + n, stack := v :: s.stack }) ∧
  (∀ s v, v.toNat < 256 ^ n → s.code.length < s.pc + 1 + n → s.cfg.pushPastEnd = .fault →
    exec (i v) s = .next (faulted .truncatedCode 0 s)) ∧
  (∀ s v, v.toNat < 256 ^ n → s.pc + 1 + n ≤ s.code.length ∨ s.cfg.pushPastEnd = .zeroPad → ¬HasRoom s →
    exec (i v) s = .next (faulted .stackOverflow 0 s)) ∧
  (∀ s b imm tail, s.status = .running → s.code.drop s.pc = b :: imm ++ tail → imm.length = n →
    opOfByte b s.cfg.opcodeMap = some o → HasRoom s →
    be imm < 256 ^ n ∧
      step s = .next { s with pc := s.pc + 1 + n, stack := BitVec.ofNat 256 (be imm) :: s.stack })

/-- `PUSH0` reads no immediate byte and is never truncated. -/
def PushesZero : Prop :=
  OneByte .push0 ∧
  (∀ s, HasRoom s → exec .push0 s = .next { s with pc := s.pc + 1, stack := 0 :: s.stack }) ∧
  (∀ s, ¬HasRoom s → exec .push0 s = .next (faulted .stackOverflow 0 s))

/-- Column `pops` of R85: how many words an instruction needs (R29). -/
def minDepth : Instr → Nat
  | .add | .mul | .sub | .div | .sdiv | .mod | .smod | .exp | .signextend => 2
  | .addmod | .mulmod => 3
  | .lt | .gt | .slt | .sgt | .eq => 2
  | .iszero | .not | .mload => 1
  | .and | .or | .xor | .byte | .shl | .shr | .sar => 2
  | .mstore | .mstore8 => 2
  | .msize | .push0 => 0
  | .push1 _ => 0
  | .push2 _ => 0
  | .push3 _ => 0
  | .push4 _ => 0
  | .push5 _ => 0
  | .push6 _ => 0
  | .push7 _ => 0
  | .push8 _ => 0
  | .push9 _ => 0
  | .push10 _ => 0
  | .push11 _ => 0
  | .push12 _ => 0
  | .push13 _ => 0
  | .push14 _ => 0
  | .push15 _ => 0
  | .push16 _ => 0
  | .push17 _ => 0
  | .push18 _ => 0
  | .push19 _ => 0
  | .push20 _ => 0
  | .push21 _ => 0
  | .push22 _ => 0
  | .push23 _ => 0
  | .push24 _ => 0
  | .push25 _ => 0
  | .push26 _ => 0
  | .push27 _ => 0
  | .push28 _ => 0
  | .push29 _ => 0
  | .push30 _ => 0
  | .push31 _ => 0
  | .push32 _ => 0

/-- The opcode byte of R85 (decision D1 for every byte but 0x52 and 0x60). -/
def opcodeByte : Instr → Byte
  | .add => 0x01
  | .mul => 0x02
  | .sub => 0x03
  | .div => 0x04
  | .sdiv => 0x05
  | .mod => 0x06
  | .smod => 0x07
  | .addmod => 0x08
  | .mulmod => 0x09
  | .exp => 0x0A
  | .signextend => 0x0B
  | .lt => 0x10
  | .gt => 0x11
  | .slt => 0x12
  | .sgt => 0x13
  | .eq => 0x14
  | .iszero => 0x15
  | .and => 0x16
  | .or => 0x17
  | .xor => 0x18
  | .not => 0x19
  | .byte => 0x1A
  | .shl => 0x1B
  | .shr => 0x1C
  | .sar => 0x1D
  | .mload => 0x51
  | .mstore => 0x52
  | .mstore8 => 0x53
  | .msize => 0x59
  | .push0 => 0x5F
  | .push1 _ => 0x60
  | .push2 _ => 0x61
  | .push3 _ => 0x62
  | .push4 _ => 0x63
  | .push5 _ => 0x64
  | .push6 _ => 0x65
  | .push7 _ => 0x66
  | .push8 _ => 0x67
  | .push9 _ => 0x68
  | .push10 _ => 0x69
  | .push11 _ => 0x6A
  | .push12 _ => 0x6B
  | .push13 _ => 0x6C
  | .push14 _ => 0x6D
  | .push15 _ => 0x6E
  | .push16 _ => 0x6F
  | .push17 _ => 0x70
  | .push18 _ => 0x71
  | .push19 _ => 0x72
  | .push20 _ => 0x73
  | .push21 _ => 0x74
  | .push22 _ => 0x75
  | .push23 _ => 0x76
  | .push24 _ => 0x77
  | .push25 _ => 0x78
  | .push26 _ => 0x79
  | .push27 _ => 0x7A
  | .push28 _ => 0x7B
  | .push29 _ => 0x7C
  | .push30 _ => 0x7D
  | .push31 _ => 0x7E
  | .push32 _ => 0x7F

/-- The 194 bytes of R87 that are no opcode under the map of R85. -/
def NoOpcode (b : Byte) : Prop :=
  b = 0x00 ∨ (0x0C ≤ b ∧ b ≤ 0x0F) ∨ (0x1E ≤ b ∧ b ≤ 0x50) ∨ (0x54 ≤ b ∧ b ≤ 0x58) ∨ (0x5A ≤ b ∧ b ≤ 0x5E) ∨
    0x80 ≤ b

/-- How many immediate bytes an instruction has: n for the push of size n, else 0 (R82). -/
def immBytes : Instr → Nat
  | .add | .mul | .sub | .div | .sdiv | .mod | .smod | .addmod | .mulmod | .exp | .signextend => 0
  | .lt | .gt | .slt | .sgt | .eq | .iszero => 0
  | .and | .or | .xor | .not | .byte | .shl | .shr | .sar => 0
  | .mload | .mstore | .mstore8 | .msize | .push0 => 0
  | .push1 _ => 1
  | .push2 _ => 2
  | .push3 _ => 3
  | .push4 _ => 4
  | .push5 _ => 5
  | .push6 _ => 6
  | .push7 _ => 7
  | .push8 _ => 8
  | .push9 _ => 9
  | .push10 _ => 10
  | .push11 _ => 11
  | .push12 _ => 12
  | .push13 _ => 13
  | .push14 _ => 14
  | .push15 _ => 15
  | .push16 _ => 16
  | .push17 _ => 17
  | .push18 _ => 18
  | .push19 _ => 19
  | .push20 _ => 20
  | .push21 _ => 21
  | .push22 _ => 22
  | .push23 _ => 23
  | .push24 _ => 24
  | .push25 _ => 25
  | .push26 _ => 26
  | .push27 _ => 27
  | .push28 _ => 28
  | .push29 _ => 29
  | .push30 _ => 30
  | .push31 _ => 31
  | .push32 _ => 32

/-- The fields the reset table of R35 gives a value for. -/
def AtReset (s : State) : Prop :=
  s.pc = 0 ∧ s.stack = [] ∧ s.memLen = 0 ∧ s.mem = [] ∧ s.status = .idle ∧ s.faultKind = .noFault ∧ s.faultPc = 0 ∧
    s.faultInfo = 0

/-- The codes of `STATUS`, R26 written out. -/
def statusNumber : Status → BitVec 2
  | .idle => 0
  | .running => 1
  | .done => 2
  | .fault => 3

/-- The codes of `FAULT_KIND`, R201 written out: 0 for none, and for each kind its fault code of the instance. -/
def faultNumber (c : FaultCodes) : FaultKind → BitVec 3
  | .noFault => 0
  | .stackUnderflow => c.stackUnderflow
  | .invalidOpcode => c.invalidOpcode
  | .stackOverflow => c.stackOverflow
  | .memoryLimit => c.memoryLimit
  | .truncatedCode => c.truncatedCode

end Sys2Proof.Claims

open Sys2Proof Sys2Proof.Machine Sys2Proof.Claims

/-- Code bytes written out from the encoding tables decode to the instructions they stand for. Source:
40_dispatch_and_push.md section 2, 30_encoding.md section 1, 30_encoding.md section 2 (decision D1). -/
def Obligations.SpecWordsDecode : Prop :=
  decode defaultOpcodeMap [0x60, 0x02] = .instr (.push1 2) ∧
  decode defaultOpcodeMap [0x01] = .instr .add ∧
  decode defaultOpcodeMap [0x15] = .instr .iszero ∧
  decode defaultOpcodeMap [0x1D] = .instr .sar ∧
  decode defaultOpcodeMap [0x52] = .instr .mstore ∧
  decode defaultOpcodeMap [0x61, 0xA2, 0xB3] = .instr (.push2 0xA2B3)

/-- Decoding an encoded instruction gives it back, for every opcode map and whatever follows it. Source: 30_encoding.md
section 1, 30_encoding.md section 2, 93_implementation_defined.md U5. -/
def Obligations.DecodeOfEncode : Prop :=
  ∀ (m : OpcodeMap) (i : Instr) (bytes tail : List Byte), (m.map (·.1)).Nodup → i.wellFormed = true →
    encode m i = some bytes → decode m (bytes ++ tail) = .instr i

/-- What the decoder reads from enough bytes is well formed, and its encoding is the bytes it was read from. Source:
30_encoding.md section 1, 30_encoding.md section 2, 93_implementation_defined.md U5, 93_implementation_defined.md
U14. -/
def Obligations.EncodeOfDecode : Prop :=
  ∀ (m : OpcodeMap) (bytes : List Byte) (i : Instr), mapValid m = true → decode m bytes = .instr i →
    1 + immBytes i ≤ bytes.length →
    i.wellFormed = true ∧ encode m i = some (bytes.take (1 + immBytes i))

/-- The default opcode map: the byte of each of the 62 instructions, and the 194 bytes that are no opcode (D1). Source:
30_encoding.md section 2 (decision D1), 30_encoding.md section 3, 93_implementation_defined.md G2. -/
def Obligations.OpcodeBytesOfTable : Prop :=
  (∀ i : Instr, encode defaultOpcodeMap i = some (opcodeByte i :: bytesBe i.imm.toNat (immBytes i))) ∧
  (∀ b : Byte, opOfByte b defaultOpcodeMap = none ↔ NoOpcode b)

/-- A step of the running engine is exec of the decoded instruction. Source: 40_dispatch_and_push.md section 1. -/
def Obligations.StepRunsDecoded : Prop :=
  ∀ (s : State) (i : Instr), s.status = .running → decode s.cfg.opcodeMap (s.code.drop s.pc) = .instr i →
    i.wellFormed = true ∧ step s = exec i s

/-- The run ends at pc >= CODE_LEN, and only there is no instruction executed: a byte with no row in the opcode map raises
InvalidOpcode, every other byte's instruction is executed and leaves the pc behind itself or faults. Source: R100, R101;
the rules rest on the decision D16 for the status block. -/
def Obligations.RunEndsAtCodeEnd : Prop :=
  ∀ s : State, s.status = .running →
    (s.code.length ≤ s.pc → step s = .next { s with status := .done }) ∧
    (s.pc < s.code.length → ∃ b, s.code[s.pc]? = some b ∧
      ((opOfByte b s.cfg.opcodeMap = none ∧ step s = .next (faulted .invalidOpcode b s)) ∨
       (∃ i : Instr, opOfByte b s.cfg.opcodeMap = some i.op ∧
         decode s.cfg.opcodeMap (s.code.drop s.pc) = .instr i ∧ step s = exec i s ∧
         ∀ t, step s = .next t →
           (t.status = .running ∧ t.pc = s.pc + 1 + immBytes i) ∨ (∃ k, k ≠ .noFault ∧ t = faulted k 0 s))))

/-- One instruction: fetch, InvalidOpcode before anything else, and how far the pc moves. Source: R101, R203; the rule
rests on the decision D16 for the status block. -/
def Obligations.InstructionCycle : Prop :=
  ∀ (s : State) (b : Byte), s.status = .running → s.code[s.pc]? = some b →
    (opOfByte b s.cfg.opcodeMap = none → step s = .next (faulted .invalidOpcode b s)) ∧
    (∀ o, opOfByte b s.cfg.opcodeMap = some o →
      ∃ i : Instr, i = o.instr (BitVec.ofNat 256 (be (takePad o.immSize (s.code.drop (s.pc + 1))))) ∧
        step s = exec i s ∧
        ∀ t, step s = .next t →
          (t.status = .running ∧ t.pc = s.pc + 1 + immBytes i) ∨ (t.status = .fault ∧ t.pc = s.pc + 1))

/-- The phases of the engine and every move between them, by steps and by host operations. Source: R233; the rule
rests on the decision D19. -/
def Obligations.PhaseMoves : Prop :=
  (∀ s : State, s.status ≠ .running → step s = .next s) ∧
  (∀ s t : State, s.status = .running → step s = .next t →
    (t.status = .done ↔ s.code.length ≤ s.pc) ∧ t.status ≠ .idle ∧
    (t.status = .fault → ∃ k info, k ≠ .noFault ∧ t = faulted k info s)) ∧
  (∀ s : State, (hostOp .reset s).1.status = .idle) ∧
  (∀ s : State, s.status = .idle → s.codeLoaded = true → (hostOp .start s).1 = { s with status := .running }) ∧
  (∀ (s : State) (o : HostOp), o ≠ .reset → ¬(o = .start ∧ s.status = .idle ∧ s.codeLoaded = true) →
    (hostOp o s).1.status = s.status)

/-- The state of a halted run stays, unchanged and readable, until the next reset discards it. Source: R36; the rule
rests on the decision D20. -/
def Obligations.HaltedStateStays : Prop :=
  ∀ s : State, s.halted = true →
    (∀ n, core.run n s = .next s) ∧
    (∀ o : HostOp, o ≠ .reset → (hostOp o s).1 = s) ∧
    (∀ i, i < s.stack.length → ∃ w, s.stack[s.stack.length - 1 - i]? = some w ∧ hostOp (.readStack i) s = (s, .word w)) ∧
    (∀ i, i < s.memLen → hostOp (.readMem i) s = (s, .byte (s.mem.get i))) ∧
    AtReset (hostOp .reset s).1

/-- ADD pushes the sum modulo 2^256. Source: R141. -/
def Obligations.AddPushesSum : Prop :=
  PopsTwo .add fun _cfg a b w =>
    w.toNat = (a.toNat + b.toNat) % 2 ^ 256

/-- MUL pushes the low 256 bits of the product. Source: R142. -/
def Obligations.MulPushesProduct : Prop :=
  PopsTwo .mul fun _cfg a b w =>
    w.toNat = a.toNat * b.toNat % 2 ^ 256

/-- SUB pushes the difference modulo 2^256, in the order SUB_ORDER selects. Source: R143; the rule rests on the
decision D6. -/
def Obligations.SubPushesDifference : Prop :=
  PopsTwo .sub fun cfg a b w =>
    (w.toNat : Int) =
      match cfg.subOrder with
      | .firstMinusSecond => ((a.toNat : Int) - b.toNat) % 2 ^ 256
      | .secondMinusFirst => ((b.toNat : Int) - a.toNat) % 2 ^ 256

/-- DIV pushes floor(b / a), the divisor a popped first, and 0 for divisor 0. Source: R144. -/
def Obligations.DivPushesFloorQuotient : Prop :=
  PopsTwo .div fun _cfg a b w =>
    w.toNat = if a = 0 then 0 else b.toNat / a.toNat

/-- SDIV pushes the quotient in the reading SIGNED_MODE selects; rounding toward zero is G4. Source: 41_arithmetic.md
section 2, 92_eei_decisions.md D8, D11, 93_implementation_defined.md G4. -/
def Obligations.SdivPushesSignedQuotient : Prop :=
  PopsTwo .sdiv fun cfg a b w =>
    match cfg.signedMode with
    | .twosComplement => w = if a = 0 then 0 else BitVec.ofInt 256 (b.toInt.tdiv a.toInt)
    | .sourceUnsigned => w.toNat = if a = 0 then 0 else b.toNat / a.toNat

/-- MOD pushes b mod a, the divisor a popped first, and 0 for divisor 0. Source: R146; the rule rests on the decision
D7. -/
def Obligations.ModPushesRemainder : Prop :=
  PopsTwo .mod fun _cfg a b w =>
    w.toNat = if a = 0 then 0 else b.toNat % a.toNat

/-- SMOD pushes the remainder in the reading SIGNED_MODE selects; the sign rule is G4. Source: 41_arithmetic.md section
2, 92_eei_decisions.md D7, D8, 93_implementation_defined.md G4. -/
def Obligations.SmodPushesSignedRemainder : Prop :=
  PopsTwo .smod fun cfg a b w =>
    match cfg.signedMode with
    | .twosComplement => w = if a = 0 then 0 else BitVec.ofInt 256 (b.toInt.tmod a.toInt)
    | .sourceUnsigned => w.toNat = if a = 0 then 0 else b.toNat % a.toNat

/-- ADDMOD pushes the exact sum modulo c, and 0 for modulus 0. Source: R148; the rule rests on the decision D12. -/
def Obligations.AddmodUsesExactSum : Prop :=
  PopsThree .addmod fun a b c w => w.toNat = if c = 0 then 0 else (a.toNat + b.toNat) % c.toNat

/-- MULMOD pushes the exact product modulo c, and 0 for modulus 0. Source: R149; the rule rests on the decision D12.
-/
def Obligations.MulmodUsesExactProduct : Prop :=
  PopsThree .mulmod fun a b c w => w.toNat = if c = 0 then 0 else a.toNat * b.toNat % c.toNat

/-- EXP pushes base to the power exponent modulo 2^256, the base popped first. Source: R150; the rule rests on the
decision D13 for 0 to the power 0. -/
def Obligations.ExpPushesPower : Prop :=
  PopsTwo .exp fun _cfg a b w =>
    w.toNat = a.toNat ^ b.toNat % 2 ^ 256

/-- SIGNEXTEND sign-extends the low a + 1 bytes of b; a count of 32 or more changes nothing. Source: R151. -/
def Obligations.SignextendExtendsLowBytes : Prop :=
  PopsTwo .signextend fun _cfg a b w =>
    if 32 ≤ a.toNat then w = b else w = (b.setWidth (8 * (a.toNat + 1))).signExtend 256

/-- LT pushes 1 exactly when b < a unsigned, b the second popped. Source: R161. -/
def Obligations.LtComparesSecondWithFirst : Prop :=
  PopsTwo .lt fun _cfg a b w =>
    IsTruth (b.toNat < a.toNat) w

/-- GT pushes 1 exactly when b > a unsigned, b the second popped. Source: R162. -/
def Obligations.GtComparesSecondWithFirst : Prop :=
  PopsTwo .gt fun _cfg a b w =>
    IsTruth (b.toNat > a.toNat) w

/-- SLT pushes 1 exactly when b < a as two's-complement integers. Source: R163; the rule rests on the decision D9. -/
def Obligations.SltComparesSignedReadings : Prop :=
  PopsTwo .slt fun _cfg a b w =>
    IsTruth (b.toInt < a.toInt) w

/-- SGT pushes 1 exactly when b > a as two's-complement integers. Source: R164; the rule rests on the decision D9. -/
def Obligations.SgtComparesSignedReadings : Prop :=
  PopsTwo .sgt fun _cfg a b w =>
    IsTruth (b.toInt > a.toInt) w

/-- EQ pushes 1 exactly when the two words are the same number. Source: R165. -/
def Obligations.EqComparesAllBits : Prop :=
  PopsTwo .eq fun _cfg a b w =>
    IsTruth (a.toNat = b.toNat) w

/-- ISZERO pushes 1 exactly when the word is 0. Source: R166. -/
def Obligations.IszeroTestsTheWord : Prop :=
  PopsOne .iszero fun a w => IsTruth (a.toNat = 0) w

/-- AND combines the words bit by bit. Source: R171. -/
def Obligations.AndCombinesBits : Prop :=
  PopsTwo .and fun _cfg a b w =>
    ∀ k, k < 256 → w.getLsbD k = (a.getLsbD k && b.getLsbD k)

/-- OR combines the words bit by bit. Source: R172. -/
def Obligations.OrCombinesBits : Prop :=
  PopsTwo .or fun _cfg a b w =>
    ∀ k, k < 256 → w.getLsbD k = (a.getLsbD k || b.getLsbD k)

/-- XOR combines the words bit by bit. Source: R173. -/
def Obligations.XorCombinesBits : Prop :=
  PopsTwo .xor fun _cfg a b w =>
    ∀ k, k < 256 → w.getLsbD k = (a.getLsbD k ^^ b.getLsbD k)

/-- NOT pushes 2^256 - 1 - a. Source: R174. -/
def Obligations.NotComplementsAllBits : Prop :=
  PopsOne .not fun a w => w.toNat = 2 ^ 256 - 1 - a.toNat

/-- BYTE pushes byte a of b, index 0 the most significant, and 0 for an index of 32 or more. Source: R175. -/
def Obligations.ByteExtractsIndexedByte : Prop :=
  PopsTwo .byte fun _cfg a b w =>
    w.toNat = if 32 ≤ a.toNat then 0 else b.toNat / 2 ^ (8 * (31 - a.toNat)) % 256

/-- SHL pushes b * 2^a modulo 2^256 for every amount a. Source: R176; the rule rests on the decision D14 for an amount
of 256 or more. -/
def Obligations.ShlShiftsByFullAmount : Prop :=
  PopsTwo .shl fun _cfg a b w =>
    w.toNat = b.toNat * 2 ^ a.toNat % 2 ^ 256

/-- SHR pushes floor(b / 2^a) for every amount a. Source: R177; the rule rests on the decision D14 for an amount of
256 or more. -/
def Obligations.ShrShiftsByFullAmount : Prop :=
  PopsTwo .shr fun _cfg a b w =>
    w.toNat = b.toNat / 2 ^ a.toNat

/-- SAR shifts right in the reading SIGNED_MODE selects; rounding toward minus infinity is G4. Source: 43_bitwise.md
section 2, 92_eei_decisions.md D8, D14, 93_implementation_defined.md G4. -/
def Obligations.SarShiftsInTheSign : Prop :=
  PopsTwo .sar fun cfg a b w =>
    match cfg.signedMode with
    | .twosComplement => w.toInt = b.toInt.fdiv (2 ^ a.toNat)
    | .sourceUnsigned => w.toNat = b.toNat / 2 ^ a.toNat

/-- MSTORE writes 32 bytes at the popped offset, most significant first, growing Memory as needed. Source: R191; the
rule rests on the decision D3 for the capacity and D5 for the unit. -/
def Obligations.MstoreWritesBigEndianWord : Prop :=
  encode defaultOpcodeMap .mstore = some [0x52] ∧ Stores .mstore 32

/-- MSTORE8 writes the low 8 bits of the value at the popped offset, growing Memory to cover one byte. Source: R192;
the rule rests on the decision D15 for the operand order. -/
def Obligations.Mstore8WritesLowByte : Prop :=
  Stores .mstore8 1

/-- MLOAD pushes the 32 bytes at the popped offset as a big-endian word and grows Memory like a store. Source: R193;
the rule rests on the decision D3 for the capacity and D5 for the unit. -/
def Obligations.MloadReadsBigEndianWord : Prop :=
  OneByte .mload ∧
  (∀ (s : State) a st, s.stack = a :: st → memorySound s = true → 0 < s.cfg.growthUnit →
    LengthFits s (lengthAfter s a.toNat 32) →
    ∃ (m : Memory) (w : Word),
      exec .mload s = .next { s with pc := s.pc + 1, stack := w :: st, mem := m, memLen := lengthAfter s a.toNat 32 } ∧
      (∀ k, k < 32 → w.toNat / 256 ^ (31 - k) % 256 = (s.mem.get (a.toNat + k)).toNat) ∧
      (∀ x, m.get x = s.mem.get x) ∧ (∀ x, s.memLen ≤ x → m.get x = 0)) ∧
  (∀ (s : State) a st, s.stack = a :: st → ¬LengthFits s (lengthAfter s a.toNat 32) →
    exec .mload s = .next (faulted .memoryLimit 0 s)) ∧
  (∀ s : State, s.stack.length < 1 → exec .mload s = .next (faulted .stackUnderflow 0 s))

/-- MSIZE pushes MEM_LEN, and raises StackOverflow on a full stack. Source: R194; the rule rests on the decision D3
for a length beyond a word and D2 for a full stack. -/
def Obligations.MsizePushesLength : Prop :=
  OneByte .msize ∧
  (∀ s : State, HasRoom s → ∃ w : Word, w.toNat = s.memLen % 2 ^ 256 ∧
    exec .msize s = .next { s with pc := s.pc + 1, stack := w :: s.stack }) ∧
  (∀ s : State, ¬HasRoom s → exec .msize s = .next (faulted .stackOverflow 0 s))

/-- PUSH0 to PUSH10: the immediate pushed, the pc past it, and the faults. Source: R106, R107, R108, R109, R110, R111,
R112, R113, R114, R115, R116; the rule rests on the decision D10 for a truncated immediate and D2 for a full stack. -/
def Obligations.PushZeroToTen : Prop :=
  (∀ v : Word, encode defaultOpcodeMap (.push1 v) = some [0x60, BitVec.ofNat 8 v.toNat]) ∧
  PushesZero ∧
  Pushes 1 .push1 .push1 ∧
  Pushes 2 .push2 .push2 ∧
  Pushes 3 .push3 .push3 ∧
  Pushes 4 .push4 .push4 ∧
  Pushes 5 .push5 .push5 ∧
  Pushes 6 .push6 .push6 ∧
  Pushes 7 .push7 .push7 ∧
  Pushes 8 .push8 .push8 ∧
  Pushes 9 .push9 .push9 ∧
  Pushes 10 .push10 .push10

/-- PUSH11 to PUSH21: the immediate pushed, the pc past it, and the faults. Source: R117, R118, R119, R120, R121,
R122, R123, R124, R125, R126, R127; the rule rests on the decision D10 for a truncated immediate and D2 for a full
stack. -/
def Obligations.PushElevenToTwentyone : Prop :=
  Pushes 11 .push11 .push11 ∧
  Pushes 12 .push12 .push12 ∧
  Pushes 13 .push13 .push13 ∧
  Pushes 14 .push14 .push14 ∧
  Pushes 15 .push15 .push15 ∧
  Pushes 16 .push16 .push16 ∧
  Pushes 17 .push17 .push17 ∧
  Pushes 18 .push18 .push18 ∧
  Pushes 19 .push19 .push19 ∧
  Pushes 20 .push20 .push20 ∧
  Pushes 21 .push21 .push21

/-- PUSH22 to PUSH32: the immediate pushed, the pc past it, and the faults. Source: R128, R129, R130, R131, R132,
R133, R134, R135, R136, R137, R138; the rule rests on the decision D10 for a truncated immediate and D2 for a full
stack. -/
def Obligations.PushTwentytwoToThirtytwo : Prop :=
  Pushes 22 .push22 .push22 ∧
  Pushes 23 .push23 .push23 ∧
  Pushes 24 .push24 .push24 ∧
  Pushes 25 .push25 .push25 ∧
  Pushes 26 .push26 .push26 ∧
  Pushes 27 .push27 .push27 ∧
  Pushes 28 .push28 .push28 ∧
  Pushes 29 .push29 .push29 ∧
  Pushes 30 .push30 .push30 ∧
  Pushes 31 .push31 .push31 ∧
  Pushes 32 .push32 .push32

/-- The general push: range check, room, then the big-endian immediate, zero-padded under ZERO_PAD. Source: R105; the
rule rests on the decision D10 for a truncated immediate and D2 for a full stack. -/
def Obligations.PushReadsCodeBytes : Prop :=
  ∀ (s : State) (b : Byte) (n : Nat) (imm : List Byte), n ≤ 32 → s.status = .running → s.code[s.pc]? = some b →
    opOfByte b s.cfg.opcodeMap = some (pushOp n) → imm.length = n →
    (∀ j, j < n → imm[j]? = some (s.code[s.pc + 1 + j]?.getD 0)) →
    (s.code.length < s.pc + 1 + n → s.cfg.pushPastEnd = .fault → step s = .next (faulted .truncatedCode 0 s)) ∧
    (¬(s.code.length < s.pc + 1 + n ∧ s.cfg.pushPastEnd = .fault) →
      (¬HasRoom s → step s = .next (faulted .stackOverflow 0 s)) ∧
      (HasRoom s → be imm < 256 ^ n ∧
        step s = .next { s with pc := s.pc + 1 + n, stack := BitVec.ofNat 256 (be imm) :: s.stack }))

/-- StackUnderflow is raised exactly where the opcode needs more words than the stack holds. Source: R202. -/
def Obligations.UnderflowExactly : Prop :=
  ∀ (i : Instr) (s : State), s.faultKind = .noFault →
    (s.stack.length < minDepth i → exec i s = .next (faulted .stackUnderflow 0 s)) ∧
    (∀ t, exec i s = .next t → t.faultKind = .stackUnderflow → s.stack.length < minDepth i)

/-- StackOverflow is raised exactly by the pushing opcodes that start with SP = STACK_CAP. Source: R204; the rule
rests on the decision D2. -/
def Obligations.OverflowExactly : Prop :=
  ∀ (i : Instr) (s t : State), s.sound = true → s.status = .running → s.pc + 1 + immBytes i ≤ s.code.length →
    exec i s = .next t →
    (t.faultKind = .stackOverflow ↔ minDepth i = 0 ∧ s.cfg.stackCap = some s.stack.length)

/-- MemoryLimit is raised exactly where an access would need MEM_LEN to exceed MEM_CAP, never inside Memory. Source:
R205; the rule rests on the decision D3. -/
def Obligations.InsideAccessNeverLimited : Prop :=
  (∀ (i : Instr) (n : Nat) (s t : State) (a : Word) (st : List Word),
    (i = .mstore ∧ n = 32 ∨ i = .mstore8 ∧ n = 1 ∨ i = .mload ∧ n = 32) → s.sound = true → s.status = .running →
    s.stack = a :: st → minDepth i ≤ s.stack.length → exec i s = .next t →
    (t.faultKind = .memoryLimit ↔ ∃ c, s.cfg.memCap = some c ∧ c < lengthAfter s a.toNat n) ∧
    (a.toNat + n ≤ s.memLen → t.faultKind = .noFault)) ∧
  (∀ (i : Instr) (s t : State), i ≠ .mstore → i ≠ .mstore8 → i ≠ .mload → s.faultKind = .noFault →
    exec i s = .next t → t.faultKind ≠ .memoryLimit)

/-- A fault keeps Stack and Memory, leaves pc = p + 1, records kind and index, and stops the engine. Source: R207; the
rule rests on the decision D16 for the status block and the pc. -/
def Obligations.FaultIsPrecise : Prop :=
  ∀ s t : State, s.status = .running → step s = .next t → t.status = .fault →
    ∃ k info, t = faulted k info s ∧ k ≠ .noFault ∧ s.pc < s.code.length ∧
      (k = .invalidOpcode → s.code[s.pc]? = some info) ∧ (k ≠ .invalidOpcode → info = 0) ∧
      ∀ n, core.run n t = .next t

/-- One fault is reported, the first of InvalidOpcode, TruncatedCode, StackUnderflow, StackOverflow, MemoryLimit.
Source: R208; the rule rests on the decision D18. -/
def Obligations.FaultPriority : Prop :=
  (∀ (s : State) (b : Byte), s.status = .running → s.code[s.pc]? = some b → opOfByte b s.cfg.opcodeMap = none →
    step s = .next (faulted .invalidOpcode b s)) ∧
  (∀ (i : Instr) (s : State), 0 < immBytes i → s.code.length < s.pc + 1 + immBytes i →
    s.cfg.pushPastEnd = .fault → exec i s = .next (faulted .truncatedCode 0 s)) ∧
  (∀ (i : Instr) (s : State), s.stack.length < minDepth i → exec i s = .next (faulted .stackUnderflow 0 s)) ∧
  (∀ (i : Instr) (s : State), minDepth i = 0 → ¬HasRoom s →
    (immBytes i = 0 ∨ s.pc + 1 + immBytes i ≤ s.code.length ∨ s.cfg.pushPastEnd = .zeroPad) →
    exec i s = .next (faulted .stackOverflow 0 s)) ∧
  (∀ (i : Instr) (n : Nat) (s : State) (a : Word) (st : List Word),
    (i = .mstore ∧ n = 32 ∨ i = .mstore8 ∧ n = 1 ∨ i = .mload ∧ n = 32) →
    s.stack = a :: st → minDepth i ≤ s.stack.length → ¬LengthFits s (lengthAfter s a.toNat n) →
    exec i s = .next (faulted .memoryLimit 0 s))

/-- From every sound state a step answers a next state, and it is sound. Source: 10_state.md sections 2 to 5,
20_memory.md section 3, 60_exceptions.md section 2, 70_reset_and_hazards.md section 2, 93_implementation_defined.md
part 1. -/
def Obligations.SoundStepAnswersSound : Prop :=
  ∀ s : State, s.sound = true → ∃ t, step s = .next t ∧ t.sound = true

/-- The state after reset is sound and has the values of the reset table. Source: 10_state.md section 8,
70_reset_and_hazards.md section 1. -/
def Obligations.ResetIsSound : Prop :=
  State.reset.sound = true ∧ AtReset State.reset

/-- Every host operation leads from a sound state to a sound state with the same parameters. Source:
70_reset_and_hazards.md sections 1 and 2, 10_state.md section 3. -/
def Obligations.HostOpsKeepSound : Prop :=
  ∀ (s : State) (o : HostOp), s.sound = true → (hostOp o s).1.sound = true ∧ (hostOp o s).1.cfg = s.cfg

/-- Every run ends, within CODE_LEN + 1 steps, at the end of Code or by a fault. Source: 00_scope.md section 5,
40_dispatch_and_push.md section 1, 70_reset_and_hazards.md section 4. -/
def Obligations.RunAlwaysHalts : Prop :=
  ∀ s : State, s.sound = true → s.status = .running →
    ∃ k t, k ≤ s.code.length + 1 ∧ core.run k s = .next t ∧
      ((t.status = .done ∧ t.code.length ≤ t.pc) ∨ t.status = .fault)

/-- No step changes Code or a parameter, and MEM_LEN never decreases. Source: 10_state.md section 3, 20_memory.md
sections 1, 3 and 5, 00_scope.md section 4. -/
def Obligations.StepKeepsCodeAndLength : Prop :=
  ∀ s t : State, step s = .next t →
    t.code = s.code ∧ t.cfg = s.cfg ∧ t.codeLoaded = s.codeLoaded ∧ t.freeCount = s.freeCount ∧ s.memLen ≤ t.memLen

/-- Every instruction that is not a store or a load leaves all of Memory alone. Source: 10_state.md sections 4 and 7,
44_memory_ops.md section 1, 40_dispatch_and_push.md section 1. -/
def Obligations.NonMemoryFrame : Prop :=
  ∀ (i : Instr) (s t : State), i ≠ .mstore → i ≠ .mstore8 → i ≠ .mload → exec i s = .next t →
    (∀ x, t.mem.get x = s.mem.get x) ∧ t.memLen = s.memLen ∧
    ((∃ k, k ≠ .noFault ∧ t = faulted k 0 s) ∨
      (t = { s with pc := s.pc + 1 + immBytes i, stack := t.stack } ∧ t.stack.drop 1 = s.stack.drop (minDepth i)))

/-- MemGrow raises MemoryLimit or makes MEM_LEN cover the access, with zero bytes, and changes nothing else. Source:
R56; the rule rests on the decision D5 for the unit and D3 for the capacity. -/
def Obligations.GrowthRule : Prop :=
  ∀ (a n : Nat) (s : State),
    (¬LengthFits s (lengthAfter s a n) → memGrow a n s = none) ∧
    (LengthFits s (lengthAfter s a n) → ∃ m : Memory,
      memGrow a n s = some { s with mem := m, memLen := lengthAfter s a n } ∧
      (∀ x, x < s.memLen → m.get x = s.mem.get x) ∧
      (∀ x, s.memLen ≤ x → x < lengthAfter s a n → m.get x = 0) ∧
      (lengthAfter s a n = s.memLen → m = s.mem))

/-- A load from the offset of a store returns the stored word and leaves Memory as it is. Source: 20_memory.md section
3, law (4), 44_memory_ops.md section 2. -/
def Obligations.StoreThenLoadReturnsValue : Prop :=
  ∀ (s t : State) (a b : Word) (st st' : List Word), memorySound s = true → 0 < s.cfg.growthUnit →
    s.stack = a :: b :: st → exec .mstore s = .next t → t.status = s.status → s.status ≠ .fault →
    exec .mload { t with stack := a :: st' } = .next { t with pc := t.pc + 1, stack := b :: st' }

/-- A 32-byte load sees exactly the byte a store-byte changed, and of two overlapping stores the later one. Source:
20_memory.md section 2. -/
def Obligations.MixedWidthAccess : Prop :=
  (∀ (s : State) (p v o : Word) (st st' : List Word), memorySound s = true → 0 < s.cfg.growthUnit →
    s.cfg.memCap = none → s.stack = p :: v :: st → o.toNat ≤ p.toNat → p.toNat < o.toNat + 32 →
    ∃ t u w, exec .mstore8 s = .next t ∧ exec .mload { t with stack := o :: st' } = .next u ∧ u.stack = w :: st' ∧
      ∀ k, k < 32 → w.toNat / 256 ^ (31 - k) % 256 =
        if k = p.toNat - o.toNat then v.toNat % 256 else (s.mem.get (o.toNat + k)).toNat) ∧
  (∀ (s : State) (a v c w : Word) (st st' : List Word), memorySound s = true → 0 < s.cfg.growthUnit →
    s.cfg.memCap = none → s.stack = a :: v :: st →
    ∃ t u, exec .mstore s = .next t ∧ exec .mstore { t with stack := c :: w :: st' } = .next u ∧
      (∀ k, k < 32 → (u.mem.get (c.toNat + k)).toNat = w.toNat / 256 ^ (31 - k) % 256) ∧
      (∀ k, k < 32 → a.toNat + k < c.toNat ∨ c.toNat + 32 ≤ a.toNat + k →
        (u.mem.get (a.toNat + k)).toNat = v.toNat / 256 ^ (31 - k) % 256))

/-- An access at offset 2^256 - 1 asks for 2^256 + 31 bytes and never reaches offset 0. Source: R60; the rule rests on
the decision D3. -/
def Obligations.OffsetsDoNotWrap : Prop :=
  (∀ (s : State) (b : Word) (st : List Word) (c : Nat), s.stack = BitVec.ofNat 256 (2 ^ 256 - 1) :: b :: st →
    s.cfg.memCap = some c → c < 2 ^ 256 → 0 < s.cfg.growthUnit →
    exec .mstore s = .next (faulted .memoryLimit 0 s) ∧ exec .mload s = .next (faulted .memoryLimit 0 s) ∧
      exec .mstore8 s = .next (faulted .memoryLimit 0 s)) ∧
  (∀ (s : State) (b : Word) (st : List Word), s.stack = BitVec.ofNat 256 (2 ^ 256 - 1) :: b :: st →
    s.cfg.memCap = none → s.cfg.growthUnit = 1 → memorySound s = true → s.memLen ≤ 2 ^ 256 + 31 →
    ∃ t, exec .mstore s = .next t ∧ t.memLen = 2 ^ 256 + 31 ∧ ∀ x, x < 2 ^ 256 - 1 → t.mem.get x = s.mem.get x)

/-- RESET leaves pc, Stack, Memory and status block at their reset values from any state, and Memory reads as zero when it
grows again. Source: R230; the rule rests on the decision D19. -/
def Obligations.ResetClearsTheRun : Prop :=
  ∀ s : State, (hostOp .reset s).2 = .accepted ∧ AtReset (hostOp .reset s).1 ∧ (hostOp .reset s).1.cfg = s.cfg ∧
    ∀ a n t, memGrow a n (hostOp .reset s).1 = some t → ∀ x, t.mem.get x = 0

/-- The host operations: where each is allowed, its effect, and what it hands over, with the codes of the status block.
Source: 70_reset_and_hazards.md section 2 (decision D19), 10_state.md section 5, 60_exceptions.md section 1 (decision
D16), 00_scope.md section 4, 93_implementation_defined.md U12. The model's own choices in it: that RESET and a refused
LOAD_CODE clear the record `codeLoaded` of a loaded code (DEDUCED, assumption 6), and that the unspecified Code of a
refused LOAD_CODE is a free value counted by `freeCount` (DESIGN CHOICE, assumption 5). -/
def Obligations.HostProtocol : Prop :=
  (∀ (s : State) (bytes : List Byte),
    (s.status = .idle → (∀ c, s.cfg.codeCap = some c → bytes.length ≤ c) →
      hostOp (.loadCode bytes) s = ({ s with code := bytes, codeLoaded := true }, .accepted)) ∧
    (s.status = .idle → ¬(∀ c, s.cfg.codeCap = some c → bytes.length ≤ c) → ∃ code,
      hostOp (.loadCode bytes) s =
        ({ s with code := code, codeLoaded := false, freeCount := s.freeCount + 1 }, .refused)) ∧
    (s.status ≠ .idle → hostOp (.loadCode bytes) s = (s, .refused))) ∧
  (∀ s : State, (hostOp .reset s).2 = .accepted ∧ AtReset (hostOp .reset s).1 ∧
    (hostOp .reset s).1.codeLoaded = false ∧ (hostOp .start (hostOp .reset s).1).2 = .refused) ∧
  (∀ s : State,
    (s.status = .idle ∧ s.codeLoaded = true → hostOp .start s = ({ s with status := .running }, .accepted)) ∧
    (¬(s.status = .idle ∧ s.codeLoaded = true) → hostOp .start s = (s, .refused))) ∧
  (∀ s : State, hostOp .readStatus s = (s, .view
    { status := statusNumber s.status, faultKind := faultNumber s.cfg.faultCodes s.faultKind, faultPc := s.faultPc,
      faultInfo := s.faultInfo, pc := s.pc, sp := s.stack.length, memLen := s.memLen, codeLen := s.code.length })) ∧
  (State.reset.cfg.faultCodes.stackUnderflow = 1 ∧ State.reset.cfg.faultCodes.invalidOpcode = 2 ∧
    State.reset.cfg.faultCodes.stackOverflow = 3 ∧ State.reset.cfg.faultCodes.memoryLimit = 4 ∧
    State.reset.cfg.faultCodes.truncatedCode = 5) ∧
  (∀ (s : State) (i : Nat),
    (s.status = .done ∨ s.status = .fault → i < s.stack.length → ∃ w, s.stack[s.stack.length - 1 - i]? = some w ∧
      hostOp (.readStack i) s = (s, .word w)) ∧
    (¬(s.status = .done ∨ s.status = .fault) ∨ s.stack.length ≤ i → hostOp (.readStack i) s = (s, .refused))) ∧
  (∀ (s : State) (i : Nat),
    (s.status = .done ∨ s.status = .fault → i < s.memLen → hostOp (.readMem i) s = (s, .byte (s.mem.get i))) ∧
    (¬(s.status = .done ∨ s.status = .fault) ∨ s.memLen ≤ i → hostOp (.readMem i) s = (s, .refused)))

/-- The pseudo-instruction PUSH v is PUSH0 for 0 and else PUSHn with the least n that holds v. Source: R91; the rule
rests on the decision D17. -/
def Obligations.AssemblePushIsShortest : Prop :=
  (∀ v : Word, ∃ n, n ≤ 32 ∧ assemblePush v = (pushOp n).instr v ∧ (assemblePush v).wellFormed = true ∧
    (assemblePush v).imm = v ∧ immBytes (assemblePush v) = n ∧ v.toNat < 256 ^ n ∧
    (v = 0 → n = 0) ∧ (v ≠ 0 → 0 < n ∧ 256 ^ (n - 1) ≤ v.toNat)) ∧
  (∀ b : Byte, assembleByte b = [b])
end

