-- ==== Sys2Proof/Laws/Bytes.lean ====
section
/-! SUPPORT. The laws of byte order: `be` and `bytesBe` are inverse to each other (00_scope.md R12). -/

namespace Sys2Proof

@[simp] theorem length_bytesBe (v n : Nat) : (bytesBe v n).length = n := by
  induction n with
  | zero => rfl
  | succ n ih => simp [bytesBe, ih]

/-- Reading back the n low bytes of v gives v modulo 256^n. -/
theorem be_bytesBe (v n : Nat) : be (bytesBe v n) = v % 256 ^ n := by
  induction n with
  | zero => simp [bytesBe, be, Nat.mod_one]
  | succ n ih =>
    simp only [bytesBe, be, length_bytesBe, ih, BitVec.toNat_ofNat]
    have e : v % 256 ^ (n + 1) = v % 256 ^ n + 256 ^ n * (v / 256 ^ n % 256) := by
      rw [Nat.pow_succ, Nat.mod_mul]
    rw [e, Nat.add_comm, Nat.mul_comm (256 ^ n)]

theorem be_bytesBe_of_lt {v n : Nat} (h : v < 256 ^ n) : be (bytesBe v n) = v := by
  rw [be_bytesBe, Nat.mod_eq_of_lt h]

/-- The big-endian value of n bytes is below 256^n. -/
theorem be_lt (bs : List Byte) : be bs < 256 ^ bs.length := by
  induction bs with
  | nil => simp [be]
  | cons b bs ih =>
    have hb : b.toNat < 256 := b.isLt
    have h1 : b.toNat * 256 ^ bs.length + 256 ^ bs.length ≤ 256 * 256 ^ bs.length := by
      rw [← Nat.succ_mul]; exact Nat.mul_le_mul_right _ hb
    simp only [be, List.length_cons, Nat.pow_succ]
    omega

/-- Only the value modulo 256^n matters to its n low bytes. -/
theorem bytesBe_add (v q n : Nat) : bytesBe (q * 256 ^ n + v) n = bytesBe v n := by
  induction n generalizing q with
  | zero => rfl
  | succ n ih =>
    have e : q * 256 ^ (n + 1) + v = (q * 256) * 256 ^ n + v := by ring
    have hp : 0 < 256 ^ n := Nat.pos_of_ne_zero (by simp)
    rw [bytesBe, bytesBe, e, ih]
    congr 1
    rw [Nat.add_comm, Nat.add_mul_div_right _ _ hp]
    apply BitVec.eq_of_toNat_eq
    simp [Nat.add_mul_mod_self_right]

/-- The bytes of a big-endian value are the bytes it was read from. -/
theorem bytesBe_be (bs : List Byte) : bytesBe (be bs) bs.length = bs := by
  induction bs with
  | nil => rfl
  | cons b bs ih =>
    have hp : 0 < 256 ^ bs.length := Nat.pos_of_ne_zero (by simp)
    simp only [List.length_cons, bytesBe, be, bytesBe_add, ih]
    rw [Nat.add_comm, Nat.add_mul_div_right _ _ hp, Nat.div_eq_of_lt (be_lt bs)]
    simp

@[simp] theorem length_takePad (n : Nat) (bs : List Byte) : (takePad n bs).length = n := by
  induction n generalizing bs with
  | zero => rfl
  | succ n ih => cases bs <;> simp [takePad, ih]

/-- Where the list is long enough nothing is padded. -/
theorem takePad_eq_take {n : Nat} {bs : List Byte} (h : n ≤ bs.length) : takePad n bs = bs.take n := by
  induction n generalizing bs with
  | zero => rfl
  | succ n ih =>
    cases bs with
    | nil => simp at h
    | cons b bs => simp [takePad, ih (by simpa using h)]

theorem takePad_append (bs tail : List Byte) : takePad bs.length (bs ++ tail) = bs := by
  rw [takePad_eq_take (by simp)]; simp

end Sys2Proof
end

