-- ==== Sys2Proof/Laws/PerInstr.lean ====
section
/-! SUPPORT. Facts about the instruction as syntax, made per constructor (LAWS.json, family Fields). -/

namespace Sys2Proof.Laws.Fields

/-- An instruction is its operation and its immediate, and it is well formed exactly when the immediate fits the
immediate bytes of the operation (30_encoding.md R83). -/
def Statement (i : Instr) : Prop :=
  i.op.instr i.imm = i ∧ (i.wellFormed = true ↔ i.imm.toNat < 256 ^ i.immSize)

theorem add : Statement .add := ⟨rfl, iff_of_true rfl (by decide)⟩

theorem mul : Statement .mul := ⟨rfl, iff_of_true rfl (by decide)⟩

theorem sub : Statement .sub := ⟨rfl, iff_of_true rfl (by decide)⟩

theorem div : Statement .div := ⟨rfl, iff_of_true rfl (by decide)⟩

theorem sdiv : Statement .sdiv := ⟨rfl, iff_of_true rfl (by decide)⟩

theorem mod : Statement .mod := ⟨rfl, iff_of_true rfl (by decide)⟩

theorem smod : Statement .smod := ⟨rfl, iff_of_true rfl (by decide)⟩

theorem addmod : Statement .addmod := ⟨rfl, iff_of_true rfl (by decide)⟩

theorem mulmod : Statement .mulmod := ⟨rfl, iff_of_true rfl (by decide)⟩

theorem exp : Statement .exp := ⟨rfl, iff_of_true rfl (by decide)⟩

theorem signextend : Statement .signextend := ⟨rfl, iff_of_true rfl (by decide)⟩

theorem lt : Statement .lt := ⟨rfl, iff_of_true rfl (by decide)⟩

theorem gt : Statement .gt := ⟨rfl, iff_of_true rfl (by decide)⟩

theorem slt : Statement .slt := ⟨rfl, iff_of_true rfl (by decide)⟩

theorem sgt : Statement .sgt := ⟨rfl, iff_of_true rfl (by decide)⟩

theorem eq : Statement .eq := ⟨rfl, iff_of_true rfl (by decide)⟩

theorem iszero : Statement .iszero := ⟨rfl, iff_of_true rfl (by decide)⟩

theorem and : Statement .and := ⟨rfl, iff_of_true rfl (by decide)⟩

theorem or : Statement .or := ⟨rfl, iff_of_true rfl (by decide)⟩

theorem xor : Statement .xor := ⟨rfl, iff_of_true rfl (by decide)⟩

theorem not : Statement .not := ⟨rfl, iff_of_true rfl (by decide)⟩

theorem byte : Statement .byte := ⟨rfl, iff_of_true rfl (by decide)⟩

theorem shl : Statement .shl := ⟨rfl, iff_of_true rfl (by decide)⟩

theorem shr : Statement .shr := ⟨rfl, iff_of_true rfl (by decide)⟩

theorem sar : Statement .sar := ⟨rfl, iff_of_true rfl (by decide)⟩

theorem mload : Statement .mload := ⟨rfl, iff_of_true rfl (by decide)⟩

theorem mstore : Statement .mstore := ⟨rfl, iff_of_true rfl (by decide)⟩

theorem mstore8 : Statement .mstore8 := ⟨rfl, iff_of_true rfl (by decide)⟩

theorem msize : Statement .msize := ⟨rfl, iff_of_true rfl (by decide)⟩

theorem push0 : Statement .push0 := ⟨rfl, iff_of_true rfl (by decide)⟩

theorem push1 (imm : Word) : Statement (.push1 imm) := ⟨rfl, decide_eq_true_iff⟩

theorem push2 (imm : Word) : Statement (.push2 imm) := ⟨rfl, decide_eq_true_iff⟩

theorem push3 (imm : Word) : Statement (.push3 imm) := ⟨rfl, decide_eq_true_iff⟩

theorem push4 (imm : Word) : Statement (.push4 imm) := ⟨rfl, decide_eq_true_iff⟩

theorem push5 (imm : Word) : Statement (.push5 imm) := ⟨rfl, decide_eq_true_iff⟩

theorem push6 (imm : Word) : Statement (.push6 imm) := ⟨rfl, decide_eq_true_iff⟩

theorem push7 (imm : Word) : Statement (.push7 imm) := ⟨rfl, decide_eq_true_iff⟩

theorem push8 (imm : Word) : Statement (.push8 imm) := ⟨rfl, decide_eq_true_iff⟩

theorem push9 (imm : Word) : Statement (.push9 imm) := ⟨rfl, decide_eq_true_iff⟩

theorem push10 (imm : Word) : Statement (.push10 imm) := ⟨rfl, decide_eq_true_iff⟩

theorem push11 (imm : Word) : Statement (.push11 imm) := ⟨rfl, decide_eq_true_iff⟩

theorem push12 (imm : Word) : Statement (.push12 imm) := ⟨rfl, decide_eq_true_iff⟩

theorem push13 (imm : Word) : Statement (.push13 imm) := ⟨rfl, decide_eq_true_iff⟩

theorem push14 (imm : Word) : Statement (.push14 imm) := ⟨rfl, decide_eq_true_iff⟩

theorem push15 (imm : Word) : Statement (.push15 imm) := ⟨rfl, decide_eq_true_iff⟩

theorem push16 (imm : Word) : Statement (.push16 imm) := ⟨rfl, decide_eq_true_iff⟩

theorem push17 (imm : Word) : Statement (.push17 imm) := ⟨rfl, decide_eq_true_iff⟩

theorem push18 (imm : Word) : Statement (.push18 imm) := ⟨rfl, decide_eq_true_iff⟩

theorem push19 (imm : Word) : Statement (.push19 imm) := ⟨rfl, decide_eq_true_iff⟩

theorem push20 (imm : Word) : Statement (.push20 imm) := ⟨rfl, decide_eq_true_iff⟩

theorem push21 (imm : Word) : Statement (.push21 imm) := ⟨rfl, decide_eq_true_iff⟩

theorem push22 (imm : Word) : Statement (.push22 imm) := ⟨rfl, decide_eq_true_iff⟩

theorem push23 (imm : Word) : Statement (.push23 imm) := ⟨rfl, decide_eq_true_iff⟩

theorem push24 (imm : Word) : Statement (.push24 imm) := ⟨rfl, decide_eq_true_iff⟩

theorem push25 (imm : Word) : Statement (.push25 imm) := ⟨rfl, decide_eq_true_iff⟩

theorem push26 (imm : Word) : Statement (.push26 imm) := ⟨rfl, decide_eq_true_iff⟩

theorem push27 (imm : Word) : Statement (.push27 imm) := ⟨rfl, decide_eq_true_iff⟩

theorem push28 (imm : Word) : Statement (.push28 imm) := ⟨rfl, decide_eq_true_iff⟩

theorem push29 (imm : Word) : Statement (.push29 imm) := ⟨rfl, decide_eq_true_iff⟩

theorem push30 (imm : Word) : Statement (.push30 imm) := ⟨rfl, decide_eq_true_iff⟩

theorem push31 (imm : Word) : Statement (.push31 imm) := ⟨rfl, decide_eq_true_iff⟩

theorem push32 (imm : Word) : Statement (.push32 imm) := ⟨rfl, decide_eq_true_iff⟩

end Sys2Proof.Laws.Fields
end

