-- ==== Sys2Proof/Laws/Decode.lean ====
section
/-! SUPPORT. The laws of the opcode map, the decoder and the encoder. -/

namespace Sys2Proof

/-- What `byteOfOp` finds is a row of the map. -/
theorem byteOfOp_mem {o : Op} {b : Byte} {m : OpcodeMap} (h : byteOfOp o m = some b) : (b, o) ∈ m := by
  induction m with
  | nil => simp [byteOfOp] at h
  | cons row m ih =>
    simp only [byteOfOp] at h
    split at h
    · rename_i ho
      obtain ⟨c, p⟩ := row
      simp_all
    · exact List.mem_cons_of_mem _ (ih h)

/-- What `opOfByte` finds is a row of the map. -/
theorem opOfByte_mem {o : Op} {b : Byte} {m : OpcodeMap} (h : opOfByte b m = some o) : (b, o) ∈ m := by
  induction m with
  | nil => simp [opOfByte] at h
  | cons row m ih =>
    simp only [opOfByte] at h
    split at h
    · rename_i hb
      obtain ⟨c, p⟩ := row
      simp_all
    · exact List.mem_cons_of_mem _ (ih h)

/-- Where no byte has two rows, a row of the map is what its byte selects. -/
theorem opOfByte_of_mem {o : Op} {b : Byte} {m : OpcodeMap} (hm : (m.map (·.1)).Nodup) (h : (b, o) ∈ m) :
    opOfByte b m = some o := by
  induction m with
  | nil => simp at h
  | cons row m ih =>
    simp only [List.map_cons, List.nodup_cons] at hm
    rcases List.mem_cons.mp h with rfl | h'
    · simp [opOfByte]
    · have hne : row.1 ≠ b := fun e => hm.1 (e ▸ List.mem_map.mpr ⟨(b, o), h', rfl⟩)
      simp [opOfByte, hne, ih hm.2 h']

/-- Where no operation has two rows, a row of the map is the byte of its operation. -/
theorem byteOfOp_of_mem {o : Op} {b : Byte} {m : OpcodeMap} (hm : (m.map (·.2)).Nodup) (h : (b, o) ∈ m) :
    byteOfOp o m = some b := by
  induction m with
  | nil => simp at h
  | cons row m ih =>
    simp only [List.map_cons, List.nodup_cons] at hm
    rcases List.mem_cons.mp h with rfl | h'
    · simp [byteOfOp]
    · have hne : row.2 ≠ o := fun e => hm.1 (e ▸ List.mem_map.mpr ⟨(b, o), h', rfl⟩)
      simp [byteOfOp, hne, ih hm.2 h']

/-- An instruction is its operation and its immediate. -/
theorem Instr.op_instr (i : Instr) : i.op.instr i.imm = i := by cases i <;> rfl

/-- Well-formedness says that the immediate fits. -/
theorem Instr.wellFormed_iff (i : Instr) : i.wellFormed = true ↔ i.imm.toNat < 256 ^ i.immSize := by
  cases i <;> first | exact decide_eq_true_iff | exact iff_of_true rfl (by decide)

@[simp] theorem Op.instr_op (o : Op) (v : Word) : (o.instr v).op = o := by cases o <;> rfl

/-- The immediate of the instruction an operation makes; an operation with no immediate bytes drops it. -/
theorem Op.instr_imm (o : Op) (v : Word) : (o.instr v).imm = if o.immSize = 0 then 0 else v := by cases o <;> rfl

theorem Op.immSize_le (o : Op) : o.immSize ≤ 32 := by cases o <;> decide

@[simp] theorem pushOp_immSize {n : Nat} (h : n ≤ 32) : (pushOp n).immSize = n := by
  interval_cases n <;> rfl

/-- `decode` on a byte and its tail, by what the byte selects. -/
theorem decode_cons (m : OpcodeMap) (b : Byte) (bs : List Byte) :
    decode m (b :: bs) =
      match opOfByte b m with
      | none => .invalidOpcode b
      | some o => .instr (o.instr (BitVec.ofNat 256 (be (takePad o.immSize bs)))) := rfl

/-- What a decoded instruction came from. -/
theorem decode_eq_instr {m : OpcodeMap} {bs : List Byte} {i : Instr} (h : decode m bs = .instr i) :
    ∃ b tail, bs = b :: tail ∧ opOfByte b m = some i.op ∧
      i = i.op.instr (BitVec.ofNat 256 (be (takePad i.immSize tail))) := by
  cases bs with
  | nil => simp [decode] at h
  | cons b tail =>
    rw [decode_cons] at h
    split at h
    · simp at h
    · rename_i o ho
      obtain rfl : o.instr _ = i := by simpa using h
      exact ⟨b, tail, rfl, by simpa using ho, by simp [Instr.immSize]⟩

/-- The value of at most 32 bytes fits a word. -/
theorem be_takePad_lt (o : Op) (bs : List Byte) : be (takePad o.immSize bs) < 256 ^ o.immSize := by
  simpa using be_lt (takePad o.immSize bs)

theorem pow_immSize_le (o : Op) : 256 ^ o.immSize ≤ 2 ^ 256 :=
  le_trans (Nat.pow_le_pow_right (by decide) o.immSize_le) (by decide)

theorem instr_takePad_wellFormed (o : Op) (tail : List Byte) :
    (o.instr (BitVec.ofNat 256 (be (takePad o.immSize tail)))).wellFormed = true := by
  rw [Instr.wellFormed_iff, Op.instr_imm, Instr.immSize, Op.instr_op]
  split
  · exact Nat.pos_of_ne_zero (by simp)
  · rw [BitVec.toNat_ofNat]
    exact lt_of_le_of_lt (Nat.mod_le _ _) (be_takePad_lt o tail)

/-- The decoder reads only well-formed instructions. -/
theorem decode_wellFormed {m : OpcodeMap} {bs : List Byte} {i : Instr} (h : decode m bs = .instr i) :
    i.wellFormed = true := by
  obtain ⟨b, tail, -, -, hi⟩ := decode_eq_instr h
  rw [hi]
  exact instr_takePad_wellFormed i.op tail

end Sys2Proof
end

