-- ==== Sys2Proof/Laws/State.lean ====
section
/-! SUPPORT. One lemma per field per update of the state, each true by unfolding the update once, so that no later proof
unfolds a record update. -/

namespace Sys2Proof.Machine

/-! ### `withStack` -/

@[simp] theorem withStack_cfg (st : List Word) (s : State) : (s.withStack st).cfg = s.cfg := rfl

@[simp] theorem withStack_code (st : List Word) (s : State) : (s.withStack st).code = s.code := rfl

@[simp] theorem withStack_codeLoaded (st : List Word) (s : State) : (s.withStack st).codeLoaded = s.codeLoaded := rfl

@[simp] theorem withStack_pc (st : List Word) (s : State) : (s.withStack st).pc = s.pc := rfl

@[simp] theorem withStack_stack (st : List Word) (s : State) : (s.withStack st).stack = st := rfl

@[simp] theorem withStack_memLen (st : List Word) (s : State) : (s.withStack st).memLen = s.memLen := rfl

@[simp] theorem withStack_mem (st : List Word) (s : State) : (s.withStack st).mem = s.mem := rfl

@[simp] theorem withStack_status (st : List Word) (s : State) : (s.withStack st).status = s.status := rfl

@[simp] theorem withStack_faultKind (st : List Word) (s : State) : (s.withStack st).faultKind = s.faultKind := rfl

@[simp] theorem withStack_faultPc (st : List Word) (s : State) : (s.withStack st).faultPc = s.faultPc := rfl

@[simp] theorem withStack_faultInfo (st : List Word) (s : State) : (s.withStack st).faultInfo = s.faultInfo := rfl

@[simp] theorem withStack_freeCount (st : List Word) (s : State) : (s.withStack st).freeCount = s.freeCount := rfl

/-! ### `advance` -/

@[simp] theorem advance_cfg (n : Nat) (s : State) : (s.advance n).cfg = s.cfg := rfl

@[simp] theorem advance_code (n : Nat) (s : State) : (s.advance n).code = s.code := rfl

@[simp] theorem advance_codeLoaded (n : Nat) (s : State) : (s.advance n).codeLoaded = s.codeLoaded := rfl

@[simp] theorem advance_pc (n : Nat) (s : State) : (s.advance n).pc = s.pc + n := rfl

@[simp] theorem advance_stack (n : Nat) (s : State) : (s.advance n).stack = s.stack := rfl

@[simp] theorem advance_memLen (n : Nat) (s : State) : (s.advance n).memLen = s.memLen := rfl

@[simp] theorem advance_mem (n : Nat) (s : State) : (s.advance n).mem = s.mem := rfl

@[simp] theorem advance_status (n : Nat) (s : State) : (s.advance n).status = s.status := rfl

@[simp] theorem advance_faultKind (n : Nat) (s : State) : (s.advance n).faultKind = s.faultKind := rfl

@[simp] theorem advance_faultPc (n : Nat) (s : State) : (s.advance n).faultPc = s.faultPc := rfl

@[simp] theorem advance_faultInfo (n : Nat) (s : State) : (s.advance n).faultInfo = s.faultInfo := rfl

@[simp] theorem advance_freeCount (n : Nat) (s : State) : (s.advance n).freeCount = s.freeCount := rfl

/-! ### `withMemory` -/

@[simp] theorem withMemory_cfg (m : Memory) (len : Nat) (s : State) : (s.withMemory m len).cfg = s.cfg := rfl

@[simp] theorem withMemory_code (m : Memory) (len : Nat) (s : State) : (s.withMemory m len).code = s.code := rfl

@[simp] theorem withMemory_codeLoaded (m : Memory) (len : Nat) (s : State) : (s.withMemory m len).codeLoaded = s.codeLoaded := rfl

@[simp] theorem withMemory_pc (m : Memory) (len : Nat) (s : State) : (s.withMemory m len).pc = s.pc := rfl

@[simp] theorem withMemory_stack (m : Memory) (len : Nat) (s : State) : (s.withMemory m len).stack = s.stack := rfl

@[simp] theorem withMemory_memLen (m : Memory) (len : Nat) (s : State) : (s.withMemory m len).memLen = len := rfl

@[simp] theorem withMemory_mem (m : Memory) (len : Nat) (s : State) : (s.withMemory m len).mem = m := rfl

@[simp] theorem withMemory_status (m : Memory) (len : Nat) (s : State) : (s.withMemory m len).status = s.status := rfl

@[simp] theorem withMemory_faultKind (m : Memory) (len : Nat) (s : State) : (s.withMemory m len).faultKind = s.faultKind := rfl

@[simp] theorem withMemory_faultPc (m : Memory) (len : Nat) (s : State) : (s.withMemory m len).faultPc = s.faultPc := rfl

@[simp] theorem withMemory_faultInfo (m : Memory) (len : Nat) (s : State) : (s.withMemory m len).faultInfo = s.faultInfo := rfl

@[simp] theorem withMemory_freeCount (m : Memory) (len : Nat) (s : State) : (s.withMemory m len).freeCount = s.freeCount := rfl

/-! ### `raise` -/

@[simp] theorem raise_cfg (k : FaultKind) (info : Byte) (s : State) : (raise k info s).cfg = s.cfg := rfl

@[simp] theorem raise_code (k : FaultKind) (info : Byte) (s : State) : (raise k info s).code = s.code := rfl

@[simp] theorem raise_codeLoaded (k : FaultKind) (info : Byte) (s : State) : (raise k info s).codeLoaded = s.codeLoaded := rfl

@[simp] theorem raise_pc (k : FaultKind) (info : Byte) (s : State) : (raise k info s).pc = s.pc + 1 := rfl

@[simp] theorem raise_stack (k : FaultKind) (info : Byte) (s : State) : (raise k info s).stack = s.stack := rfl

@[simp] theorem raise_memLen (k : FaultKind) (info : Byte) (s : State) : (raise k info s).memLen = s.memLen := rfl

@[simp] theorem raise_mem (k : FaultKind) (info : Byte) (s : State) : (raise k info s).mem = s.mem := rfl

@[simp] theorem raise_status (k : FaultKind) (info : Byte) (s : State) : (raise k info s).status = .fault := rfl

@[simp] theorem raise_faultKind (k : FaultKind) (info : Byte) (s : State) : (raise k info s).faultKind = k := rfl

@[simp] theorem raise_faultPc (k : FaultKind) (info : Byte) (s : State) : (raise k info s).faultPc = s.pc := rfl

@[simp] theorem raise_faultInfo (k : FaultKind) (info : Byte) (s : State) : (raise k info s).faultInfo = info := rfl

@[simp] theorem raise_freeCount (k : FaultKind) (info : Byte) (s : State) : (raise k info s).freeCount = s.freeCount := rfl

/-! ### Derived views -/

@[simp] theorem withStack_codeLen (st : List Word) (s : State) : (s.withStack st).codeLen = s.codeLen := rfl

@[simp] theorem withStack_sp (st : List Word) (s : State) : (s.withStack st).sp = st.length := rfl

@[simp] theorem advance_codeLen (n : Nat) (s : State) : (s.advance n).codeLen = s.codeLen := rfl

@[simp] theorem advance_sp (n : Nat) (s : State) : (s.advance n).sp = s.sp := rfl

@[simp] theorem withMemory_codeLen (m : Memory) (len : Nat) (s : State) : (s.withMemory m len).codeLen = s.codeLen := rfl

@[simp] theorem withMemory_sp (m : Memory) (len : Nat) (s : State) : (s.withMemory m len).sp = s.sp := rfl

@[simp] theorem raise_codeLen (k : FaultKind) (info : Byte) (s : State) : (raise k info s).codeLen = s.codeLen := rfl

@[simp] theorem raise_sp (k : FaultKind) (info : Byte) (s : State) : (raise k info s).sp = s.sp := rfl

end Sys2Proof.Machine
end

