-- ==== Sys2Proof/Laws/Memory.lean ====
section
/-! SUPPORT. The laws of Memory: reading after writing, the canonical form, and what the three primitives `memGrow`,
`memRead` and `memWrite` can do (20_memory.md R56, R58, R59, R61). -/

namespace Sys2Proof.Machine

/-! ### The canonical form -/

theorem risingFrom_cons (lo : Nat) (c : Host.Cell) (m : Memory) :
    Memory.risingFrom lo (c :: m) = true ↔ lo ≤ c.1 ∧ c.2 ≠ 0 ∧ Memory.risingFrom (c.1 + 1) m = true := by
  simp [Memory.risingFrom, and_assoc]

theorem allBelow_cons (n : Nat) (c : Host.Cell) (m : Memory) :
    Memory.allBelow n (c :: m) = true ↔ c.1 < n ∧ m.allBelow n = true := by
  simp [Memory.allBelow]

/-- A higher bound is a weaker claim. -/
theorem allBelow_mono {n n' : Nat} {m : Memory} (h : n ≤ n') (hm : m.allBelow n = true) : m.allBelow n' = true := by
  induction m with
  | nil => rfl
  | cons c m ih =>
    rw [allBelow_cons] at hm ⊢
    exact ⟨lt_of_lt_of_le hm.1 h, ih hm.2⟩

/-- A lower start is a weaker claim. -/
theorem risingFrom_mono {lo lo' : Nat} {m : Memory} (h : lo' ≤ lo) (hm : Memory.risingFrom lo m = true) :
    Memory.risingFrom lo' m = true := by
  cases m with
  | nil => rfl
  | cons c m =>
    rw [risingFrom_cons] at hm ⊢
    exact ⟨le_trans h hm.1, hm.2⟩

/-- Nothing is listed below the start. -/
theorem get_of_lt_risingFrom {lo a : Nat} {m : Memory} (hm : Memory.risingFrom lo m = true) (h : a < lo) :
    m.get a = 0 := by
  induction m generalizing lo with
  | nil => rfl
  | cons c m ih =>
    rw [risingFrom_cons] at hm
    have hne : c.1 ≠ a := by omega
    rw [Memory.get, if_neg hne]
    exact ih hm.2.2 (by omega)

theorem set_risingFrom {lo a : Nat} {v : Byte} {m : Memory} (hm : Memory.risingFrom lo m = true) (h : lo ≤ a) :
    Memory.risingFrom lo (m.set a v) = true := by
  induction m generalizing lo with
  | nil =>
    rw [Memory.set]
    split
    · rfl
    · rename_i hv
      rw [risingFrom_cons]
      exact ⟨h, hv, rfl⟩
  | cons c m ih =>
    rw [risingFrom_cons] at hm
    obtain ⟨h1, h2, h3⟩ := hm
    rw [Memory.set]
    split_ifs with hlt heq hv hv
    · rw [risingFrom_cons]
      exact ⟨h1, h2, ih h3 (by omega)⟩
    · exact risingFrom_mono (by omega) h3
    · subst heq
      rw [risingFrom_cons]
      exact ⟨h1, hv, h3⟩
    · rw [risingFrom_cons]
      exact ⟨h1, h2, h3⟩
    · rw [risingFrom_cons, risingFrom_cons]
      exact ⟨h, hv, by show a + 1 ≤ c.1; omega, h2, h3⟩

/-- A write of one byte keeps the canonical form. -/
theorem set_wf {m : Memory} (a : Nat) (v : Byte) (hm : m.wf = true) : (m.set a v).wf = true :=
  set_risingFrom hm (Nat.zero_le a)

theorem below_risingFrom {lo n : Nat} {m : Memory} (hm : Memory.risingFrom lo m = true) :
    Memory.risingFrom lo (m.below n) = true := by
  induction m generalizing lo with
  | nil => rfl
  | cons c m ih =>
    rw [risingFrom_cons] at hm
    by_cases hc : c.1 < n
    · rw [Memory.below, List.filter_cons_of_pos (by simpa using hc), risingFrom_cons]
      exact ⟨hm.1, hm.2.1, ih hm.2.2⟩
    · rw [Memory.below, List.filter_cons_of_neg (by simpa using hc)]
      exact risingFrom_mono (by omega) (ih hm.2.2)

/-- Dropping the cells at or above an offset keeps the canonical form. -/
theorem below_wf {m : Memory} (n : Nat) (hm : m.wf = true) : (m.below n).wf = true := below_risingFrom hm

theorem setBytes_wf {m : Memory} (a : Nat) (bs : List Byte) (hm : m.wf = true) : (m.setBytes a bs).wf = true := by
  induction bs generalizing a m with
  | nil => exact hm
  | cons b bs ih => exact ih (a + 1) (set_wf a b hm)

/-! ### Reading after writing -/

theorem get_set_risingFrom {lo a x : Nat} {v : Byte} {m : Memory} (hm : Memory.risingFrom lo m = true) :
    (m.set a v).get x = if x = a then v else m.get x := by
  induction m generalizing lo with
  | nil =>
    by_cases hv : v = 0
    · rw [Memory.set, if_pos hv, hv]
      exact (ite_self _).symm
    · rw [Memory.set, if_neg hv]
      exact if_congr eq_comm rfl rfl
  | cons c m ih =>
    rw [risingFrom_cons] at hm
    obtain ⟨-, -, h3⟩ := hm
    rw [Memory.set]
    by_cases hlt : c.1 < a
    · rw [if_pos hlt, Memory.get, Memory.get, ih h3]
      by_cases hcx : c.1 = x
      · rw [if_pos hcx, if_pos hcx, if_neg (by omega)]
      · rw [if_neg hcx, if_neg hcx]
    rw [if_neg hlt]
    by_cases heq : c.1 = a
    · rw [if_pos heq]
      by_cases hx : x = a
      · rw [if_pos hx]
        by_cases hv : v = 0
        · rw [if_pos hv, hv]
          exact get_of_lt_risingFrom h3 (by omega)
        · rw [if_neg hv]
          exact if_pos hx.symm
      · have hc : Memory.get x (c :: m) = Memory.get x m := if_neg (by omega)
        rw [if_neg hx, hc]
        by_cases hv : v = 0
        · rw [if_pos hv]
        · rw [if_neg hv]
          exact if_neg (Ne.symm hx)
    rw [if_neg heq]
    by_cases hx : x = a
    · rw [if_pos hx]
      by_cases hv : v = 0
      · rw [if_pos hv, hv, Memory.get, if_neg (by omega)]
        exact get_of_lt_risingFrom h3 (by omega)
      · rw [if_neg hv]
        exact if_pos hx.symm
    · rw [if_neg hx]
      by_cases hv : v = 0
      · rw [if_pos hv]
      · rw [if_neg hv]
        exact if_neg (Ne.symm hx)

/-- A byte reads back as written, and every other byte is left alone. -/
theorem get_set {m : Memory} (hm : m.wf = true) (a x : Nat) (v : Byte) :
    (m.set a v).get x = if x = a then v else m.get x := get_set_risingFrom hm

/-- Below the cut every byte is left alone; at and above it every byte reads as zero. -/
theorem get_below (m : Memory) (n x : Nat) : (m.below n).get x = if x < n then m.get x else 0 := by
  induction m with
  | nil => simp [Memory.below, Memory.get]
  | cons c m ih =>
    rw [Memory.below] at ih ⊢
    by_cases hc : c.1 < n
    · rw [List.filter_cons_of_pos (by simpa using hc), Memory.get, Memory.get, ih]
      split_ifs <;> first | rfl | omega
    · rw [List.filter_cons_of_neg (by simpa using hc), ih, Memory.get]
      split_ifs <;> first | rfl | omega

/-- Where every cell lies below the cut, nothing is dropped. -/
theorem below_eq_self {m : Memory} {n : Nat} (h : m.allBelow n = true) : m.below n = m := by
  induction m with
  | nil => rfl
  | cons c m ih =>
    rw [allBelow_cons] at h
    rw [Memory.below, List.filter_cons_of_pos (by simpa using h.1)]
    exact congrArg _ (ih h.2)

/-- A byte after a write of several: inside the range the byte written there, outside it the byte before. -/
theorem get_setBytes {m : Memory} (hm : m.wf = true) (a x : Nat) (bs : List Byte) :
    (m.setBytes a bs).get x = if a ≤ x ∧ x < a + bs.length then bs.getD (x - a) 0 else m.get x := by
  induction bs generalizing a m with
  | nil => rw [if_neg (by simp)]; rfl
  | cons b bs ih =>
    rw [Memory.setBytes, ih (set_wf a b hm), get_set hm]
    by_cases hx : x = a
    · subst hx; simp
    · by_cases hr : a + 1 ≤ x ∧ x < a + 1 + bs.length
      · rw [if_pos hr, if_pos (by simp only [List.length_cons]; omega)]
        obtain ⟨k, hk⟩ : ∃ k, x - a = k + 1 := ⟨x - a - 1, by omega⟩
        rw [hk, show x - (a + 1) = k by omega]
        rfl
      · rw [if_neg hr, if_neg hx, if_neg (by simp only [List.length_cons]; omega)]

@[simp] theorem length_getBytes (m : Memory) (a n : Nat) : (m.getBytes a n).length = n := by
  induction n generalizing a with
  | zero => rfl
  | succ n ih => simp [Memory.getBytes, ih]

/-- The bytes of a range are the bytes read one by one. -/
theorem getBytes_getD (m : Memory) {a n k : Nat} (h : k < n) : (m.getBytes a n).getD k 0 = m.get (a + k) := by
  induction n generalizing a k with
  | zero => omega
  | succ n ih =>
    cases k with
    | zero => rfl
    | succ k =>
      rw [Memory.getBytes, List.getD_cons_succ, ih (by omega)]
      congr 1
      omega

/-- Two Memories that agree on a range read the same bytes there. -/
theorem getBytes_congr {m m' : Memory} {a n : Nat} (h : ∀ x, a ≤ x → x < a + n → m.get x = m'.get x) :
    m.getBytes a n = m'.getBytes a n := by
  induction n generalizing a with
  | zero => rfl
  | succ n ih =>
    rw [Memory.getBytes, Memory.getBytes, h a (by omega) (by omega), ih fun x h1 h2 => h x (by omega) (by omega)]

/-- Round trip of a range: the bytes written are the bytes read. -/
theorem getBytes_setBytes {m : Memory} (hm : m.wf = true) (a : Nat) (bs : List Byte) :
    (m.setBytes a bs).getBytes a bs.length = bs := by
  refine List.ext_getElem (by simp) fun k h1 h2 => ?_
  have h : k < bs.length := h2
  have e := getBytes_getD (m.setBytes a bs) (a := a) h
  rw [get_setBytes hm, if_pos (by omega), Nat.add_sub_cancel_left] at e
  rw [List.getD_eq_getElem _ _ h1, List.getD_eq_getElem _ _ h] at e
  exact e

/-- A byte of a word written big-endian (R59). -/
theorem bytesBe_getD {v n k : Nat} (h : k < n) :
    (bytesBe v n).getD k 0 = BitVec.ofNat 8 (v / 256 ^ (n - 1 - k)) := by
  induction n generalizing k with
  | zero => omega
  | succ n ih =>
    cases k with
    | zero => rfl
    | succ k =>
      rw [bytesBe, List.getD_cons_succ, ih (by omega), show n + 1 - 1 - (k + 1) = n - 1 - k by omega]

/-- The cells stay below a bound that covers what is written. -/
theorem set_allBelow {m : Memory} {a n : Nat} {v : Byte} (ha : a < n) (h : m.allBelow n = true) :
    (m.set a v).allBelow n = true := by
  induction m with
  | nil =>
    rw [Memory.set]
    split
    · rfl
    · exact (allBelow_cons _ _ _).mpr ⟨ha, rfl⟩
  | cons c m ih =>
    obtain ⟨h1, h2⟩ := (allBelow_cons _ _ _).mp h
    rw [Memory.set]
    split_ifs
    · exact (allBelow_cons _ _ _).mpr ⟨h1, ih h2⟩
    · exact h2
    · exact (allBelow_cons _ _ _).mpr ⟨ha, h2⟩
    · exact h
    · exact (allBelow_cons _ _ _).mpr ⟨ha, h⟩

theorem setBytes_allBelow {m : Memory} {a n : Nat} {bs : List Byte} (ha : a + bs.length ≤ n)
    (h : m.allBelow n = true) : (m.setBytes a bs).allBelow n = true := by
  induction bs generalizing a m with
  | nil => exact h
  | cons b bs ih =>
    simp only [List.length_cons] at ha
    exact ih (by omega) (set_allBelow (by omega) h)

theorem below_allBelow (m : Memory) (n : Nat) : (m.below n).allBelow n = true := by
  induction m with
  | nil => rfl
  | cons c m ih =>
    rw [Memory.below] at ih ⊢
    by_cases hc : c.1 < n
    · rw [List.filter_cons_of_pos (by simpa using hc), allBelow_cons]
      exact ⟨hc, ih⟩
    · rw [List.filter_cons_of_neg (by simpa using hc)]
      exact ih

/-! ### The primitives -/

/-- The rounded end covers the access. -/
theorem le_growTarget {unit : Nat} (hu : 0 < unit) (a n : Nat) : a + n ≤ growTarget unit a n := by
  have h := Nat.div_add_mod (a + n + unit - 1) unit
  have hlt := Nat.mod_lt (a + n + unit - 1) hu
  rw [growTarget, Nat.mul_comm]
  omega

/-- With the default unit the length is exact to the byte (R57). -/
@[simp] theorem growTarget_one (a n : Nat) : growTarget 1 a n = a + n := by simp [growTarget]

theorem growTarget_mod (unit a n : Nat) : growTarget unit a n % unit = 0 := by simp [growTarget]

/-- Everything `memGrow` can do: it raises `MemoryLimit` where the new length is beyond `MEM_CAP`; else the length is
the new length, no byte below the old length changes and every byte at or above it reads as zero where the length has
grown, and nothing else of the state changes. -/
theorem memGrow_cases (a n : Nat) (s : State) :
    (within (grownLen s a n) s.cfg.memCap = false ∧ memGrow a n s = none) ∨
    (within (grownLen s a n) s.cfg.memCap = true ∧ ∃ m, memGrow a n s = some (s.withMemory m (grownLen s a n)) ∧
      (s.mem.wf = true → m.wf = true) ∧
      (m = s.mem ∧ grownLen s a n = s.memLen ∨ m = s.mem.below s.memLen ∧ s.memLen < grownLen s a n)) := by
  cases hw : within (grownLen s a n) s.cfg.memCap with
  | false => exact .inl ⟨rfl, by simp [memGrow, hw]⟩
  | true =>
    refine .inr ⟨rfl, ?_⟩
    have hle : s.memLen ≤ grownLen s a n := Nat.le_max_left _ _
    by_cases hlt : s.memLen < grownLen s a n
    · exact ⟨s.mem.below s.memLen, by simp [memGrow, hw, hlt], fun h => below_wf _ h, .inr ⟨rfl, hlt⟩⟩
    · have he : grownLen s a n = s.memLen := by omega
      refine ⟨s.mem, ?_, fun h => h, .inl ⟨rfl, he⟩⟩
      rw [memGrow, if_pos hw, if_neg hlt, he]
      rfl

/-- The byte at an offset after a growth. -/
theorem memGrow_get {a n : Nat} {s t : State} (h : memGrow a n s = some t) (x : Nat) :
    t.mem.get x = if s.memLen < t.memLen ∧ s.memLen ≤ x then 0 else s.mem.get x := by
  rcases memGrow_cases a n s with ⟨-, h0⟩ | ⟨-, m, h1, -, ⟨rfl, he⟩ | ⟨rfl, hlt⟩⟩
  · simp [h0] at h
  · obtain rfl := Option.some.inj (h1.symm.trans h)
    simp [he]
  · obtain rfl := Option.some.inj (h1.symm.trans h)
    rw [withMemory_mem, withMemory_memLen, get_below]
    by_cases hx : x < s.memLen
    · rw [if_pos hx, if_neg (by omega)]
    · rw [if_neg hx, if_pos ⟨hlt, by omega⟩]

/-- After a growth the range is inside the Memory. -/
theorem memGrow_covers {a n : Nat} {s t : State} (hu : 0 < s.cfg.growthUnit) (h : memGrow a n s = some t) :
    a + n ≤ t.memLen := by
  rcases memGrow_cases a n s with ⟨-, h0⟩ | ⟨-, m, h1, -⟩
  · simp [h0] at h
  · obtain rfl := Option.some.inj (h1.symm.trans h)
    exact le_trans (le_growTarget hu a n) (Nat.le_max_right _ _)

end Sys2Proof.Machine
end

