-- ==== Sys2Proof/Laws/Operands.lean ====
section
/-! SUPPORT. Once for each operand form, everything it can do: the fault it raises and when, or the state it completes
in. The provers cite these instead of unfolding a form. -/

namespace Sys2Proof.Machine

theorem unary_cases (f : Word → Word) (s : State) :
    (s.sp < 1 ∧ unary f s = takeFault .stackUnderflow s) ∨
    ∃ a st, s.stack = a :: st ∧ unary f s = complete 0 (f a :: st) s := by
  rcases h : s.stack with _ | ⟨a, st⟩
  · exact .inl ⟨by simp [State.sp, h], by simp [unary, h]⟩
  · exact .inr ⟨a, st, rfl, by simp [unary, h]⟩

theorem binary_cases (f : Word → Word → Word) (s : State) :
    (s.sp < 2 ∧ binary f s = takeFault .stackUnderflow s) ∨
    ∃ a b st, s.stack = a :: b :: st ∧ binary f s = complete 0 (f a b :: st) s := by
  rcases h : s.stack with _ | ⟨a, _ | ⟨b, st⟩⟩
  · exact .inl ⟨by simp [State.sp, h], by simp [binary, h]⟩
  · exact .inl ⟨by simp [State.sp, h], by simp [binary, h]⟩
  · exact .inr ⟨a, b, st, rfl, by simp [binary, h]⟩

theorem ternary_cases (f : Word → Word → Word → Word) (s : State) :
    (s.sp < 3 ∧ ternary f s = takeFault .stackUnderflow s) ∨
    ∃ a b c st, s.stack = a :: b :: c :: st ∧ ternary f s = complete 0 (f a b c :: st) s := by
  rcases h : s.stack with _ | ⟨a, _ | ⟨b, _ | ⟨c, st⟩⟩⟩
  · exact .inl ⟨by simp [State.sp, h], by simp [ternary, h]⟩
  · exact .inl ⟨by simp [State.sp, h], by simp [ternary, h]⟩
  · exact .inl ⟨by simp [State.sp, h], by simp [ternary, h]⟩
  · exact .inr ⟨a, b, c, st, rfl, by simp [ternary, h]⟩

theorem pushWord_cases (n : Nat) (v : Word) (s : State) :
    (s.hasRoom = false ∧ pushWord n v s = takeFault .stackOverflow s) ∨
    (s.hasRoom = true ∧ pushWord n v s = complete n (v :: s.stack) s) := by
  cases h : s.hasRoom
  · exact .inl ⟨rfl, by simp [pushWord, h]⟩
  · exact .inr ⟨rfl, by simp [pushWord, h]⟩

theorem pushImm_cases (n : Nat) (v : Word) (s : State) :
    ((s.codeLen < s.pc + 1 + n ∧ s.cfg.pushPastEnd = .fault) ∧ pushImm n v s = takeFault .truncatedCode s) ∨
    (¬(s.codeLen < s.pc + 1 + n ∧ s.cfg.pushPastEnd = .fault) ∧ pushImm n v s = pushWord n v s) := by
  by_cases h : s.codeLen < s.pc + 1 + n ∧ s.cfg.pushPastEnd = .fault
  · exact .inl ⟨h, if_pos h⟩
  · exact .inr ⟨h, if_neg h⟩

/-- What a growth leaves a store or a load to work on: the range is covered unless the growth unit is 0. -/
theorem memGrow_unit {a n : Nat} {s t : State} (h : memGrow a n s = some t) :
    a + n ≤ t.memLen ∨ s.cfg.growthUnit = 0 := by
  rcases Nat.eq_zero_or_pos s.cfg.growthUnit with h0 | h0
  · exact .inr h0
  · exact .inl (memGrow_covers h0 h)

theorem storeBytes_cases (n : Nat) (s : State) :
    (s.sp < 2 ∧ storeBytes n s = takeFault .stackUnderflow s) ∨
    ∃ a b st, s.stack = a :: b :: st ∧
      ((memGrow a.toNat n s = none ∧ storeBytes n s = takeFault .memoryLimit s) ∨
       ∃ t, memGrow a.toNat n s = some t ∧
        ((a.toNat + n ≤ t.memLen ∧ storeBytes n s = complete 0 st
            (t.withMemory (t.mem.setBytes a.toNat (bytesBe (b.toNat % 256 ^ n) n)) t.memLen)) ∨
         (s.cfg.growthUnit = 0 ∧ storeBytes n s = .fault .outsideMemory))) := by
  rcases h : s.stack with _ | ⟨a, _ | ⟨b, st⟩⟩
  · exact .inl ⟨by simp [State.sp, h], by simp [storeBytes, h]⟩
  · exact .inl ⟨by simp [State.sp, h], by simp [storeBytes, h]⟩
  · refine .inr ⟨a, b, st, rfl, ?_⟩
    rcases hg : memGrow a.toNat n s with _ | t
    · exact .inl ⟨rfl, by simp [storeBytes, h, hg]⟩
    · refine .inr ⟨t, rfl, ?_⟩
      by_cases hc : a.toNat + n ≤ t.memLen
      · exact .inl ⟨hc, by simp [storeBytes, h, hg, memWrite, hc]⟩
      · exact .inr ⟨(memGrow_unit hg).resolve_left hc, by simp [storeBytes, h, hg, memWrite, hc]⟩

theorem loadBytes_cases (n : Nat) (s : State) :
    (s.sp < 1 ∧ loadBytes n s = takeFault .stackUnderflow s) ∨
    ∃ a st, s.stack = a :: st ∧
      ((memGrow a.toNat n s = none ∧ loadBytes n s = takeFault .memoryLimit s) ∨
       ∃ t, memGrow a.toNat n s = some t ∧
        ((a.toNat + n ≤ t.memLen ∧
            loadBytes n s = complete 0 (u256 (be (t.mem.getBytes a.toNat n)) :: st) t) ∨
         (s.cfg.growthUnit = 0 ∧ loadBytes n s = .fault .outsideMemory))) := by
  rcases h : s.stack with _ | ⟨a, st⟩
  · exact .inl ⟨by simp [State.sp, h], by simp [loadBytes, h]⟩
  · refine .inr ⟨a, st, rfl, ?_⟩
    rcases hg : memGrow a.toNat n s with _ | t
    · exact .inl ⟨rfl, by simp [loadBytes, h, hg]⟩
    · refine .inr ⟨t, rfl, ?_⟩
      by_cases hc : a.toNat + n ≤ t.memLen
      · exact .inl ⟨hc, by simp [loadBytes, h, hg, memRead, hc]⟩
      · exact .inr ⟨(memGrow_unit hg).resolve_left hc, by simp [loadBytes, h, hg, memRead, hc]⟩

end Sys2Proof.Machine
end

