-- ==== Sys2Proof/Laws/Exec.lean ====
section
/-! SUPPORT. Once for all instructions and for the step: everything they can do. Every invariant is derived from these
two case lists instead of unfolding `exec`. -/

namespace Sys2Proof.Machine

/-- How an instruction may leave the Memory: a sound Memory stays sound, and its length never falls. -/
def MemoryKept (s : State) (m : Memory) (len : Nat) : Prop :=
  s.memLen ≤ len ∧ (memorySound s = true → memorySound (s.withMemory m len) = true)

/-- How an instruction may leave the stack: no deeper than before, or one word deeper where there was room. -/
def StackKept (s : State) (st : List Word) : Prop :=
  st.length ≤ s.sp ∨ (st.length = s.sp + 1 ∧ s.hasRoom = true)

/-- The three ways an instruction of n immediate bytes can end. -/
def Ends (n : Nat) (s : State) (r : Result) : Prop :=
  (∃ k, k ≠ .noFault ∧ k ≠ .invalidOpcode ∧ r = takeFault k s) ∨
  (∃ st m len, r = complete n st (s.withMemory m len) ∧ StackKept s st ∧ MemoryKept s m len) ∨
  (s.cfg.growthUnit = 0 ∧ r = .fault .outsideMemory)

theorem memoryKept_refl (s : State) : MemoryKept s s.mem s.memLen := ⟨le_rfl, fun h => h⟩

theorem ends_fault {n : Nat} {s : State} {r : Result} {k : FaultKind} (h1 : k ≠ .noFault) (h2 : k ≠ .invalidOpcode)
    (h : r = takeFault k s) : Ends n s r := .inl ⟨k, h1, h2, h⟩

theorem ends_complete {n : Nat} {s : State} {r : Result} {st : List Word} (hs : StackKept s st)
    (h : r = complete n st s) : Ends n s r := .inr (.inl ⟨st, s.mem, s.memLen, h, hs, memoryKept_refl s⟩)

theorem unary_ends (f : Word → Word) (s : State) : Ends 0 s (unary f s) := by
  rcases unary_cases f s with ⟨-, h⟩ | ⟨a, st, hst, h⟩
  · exact ends_fault (by decide) (by decide) h
  · exact ends_complete (.inl (by simp [State.sp, hst])) h

theorem binary_ends (f : Word → Word → Word) (s : State) : Ends 0 s (binary f s) := by
  rcases binary_cases f s with ⟨-, h⟩ | ⟨a, b, st, hst, h⟩
  · exact ends_fault (by decide) (by decide) h
  · exact ends_complete (.inl (by simp [State.sp, hst])) h

theorem ternary_ends (f : Word → Word → Word → Word) (s : State) : Ends 0 s (ternary f s) := by
  rcases ternary_cases f s with ⟨-, h⟩ | ⟨a, b, c, st, hst, h⟩
  · exact ends_fault (by decide) (by decide) h
  · exact ends_complete (.inl (by simp [State.sp, hst])) h

theorem pushWord_ends (n : Nat) (v : Word) (s : State) : Ends n s (pushWord n v s) := by
  rcases pushWord_cases n v s with ⟨-, h⟩ | ⟨hr, h⟩
  · exact ends_fault (by decide) (by decide) h
  · exact ends_complete (.inr ⟨by simp [State.sp], hr⟩) h

theorem pushImm_ends (n : Nat) (v : Word) (s : State) : Ends n s (pushImm n v s) := by
  rcases pushImm_cases n v s with ⟨-, h⟩ | ⟨-, h⟩
  · exact ends_fault (by decide) (by decide) h
  · rw [h]; exact pushWord_ends n v s

theorem memorySound_iff (s : State) :
    memorySound s = true ↔ s.mem.wf = true ∧ s.mem.allBelow s.memLen = true ∧
      s.memLen % s.cfg.growthUnit = 0 ∧ within s.memLen s.cfg.memCap = true := by
  simp [memorySound, and_assoc]

/-- A growth keeps a sound Memory sound. -/
theorem memGrow_kept {a n : Nat} {s t : State} (h : memGrow a n s = some t) :
    ∃ m len, t = s.withMemory m len ∧ MemoryKept s m len := by
  rcases memGrow_cases a n s with ⟨-, h0⟩ | ⟨hw, m, h1, hwf, hm⟩
  · simp [h0] at h
  · refine ⟨m, grownLen s a n, Option.some.inj (h.symm.trans h1), Nat.le_max_left _ _, fun hs => ?_⟩
    rw [memorySound_iff] at hs ⊢
    obtain ⟨h2, h3, h4, -⟩ := hs
    refine ⟨hwf h2, ?_, ?_, hw⟩
    · rcases hm with ⟨rfl, he⟩ | ⟨rfl, hlt⟩
      · simpa [he] using h3
      · exact allBelow_mono (le_of_lt hlt) (below_allBelow _ _)
    · show grownLen s a n % s.cfg.growthUnit = 0
      rw [grownLen]
      rcases Nat.le_total s.memLen (growTarget s.cfg.growthUnit a n) with hl | hl
      · rw [Nat.max_eq_right hl]; exact growTarget_mod _ _ _
      · rw [Nat.max_eq_left hl]; exact h4

/-- A write inside a sound Memory keeps it sound. -/
theorem setBytes_kept {t : State} {a : Nat} {bs : List Byte} (hc : a + bs.length ≤ t.memLen)
    (h : memorySound t = true) : memorySound (t.withMemory (t.mem.setBytes a bs) t.memLen) = true := by
  rw [memorySound_iff] at h ⊢
  exact ⟨setBytes_wf _ _ h.1, setBytes_allBelow hc h.2.1, h.2.2⟩

theorem storeBytes_ends (n : Nat) (s : State) : Ends 0 s (storeBytes n s) := by
  rcases storeBytes_cases n s with ⟨-, h⟩ | ⟨a, b, st, hst, ⟨-, h⟩ | ⟨t, hg, ⟨hc, h⟩ | h⟩⟩
  · exact ends_fault (by decide) (by decide) h
  · exact ends_fault (by decide) (by decide) h
  · obtain ⟨m, len, rfl, hle, hk⟩ := memGrow_kept hg
    refine .inr (.inl ⟨st, _, len, h, .inl (by simp [State.sp, hst]; omega), hle, fun hs => ?_⟩)
    exact setBytes_kept (t := s.withMemory m len) (by simpa using hc) (hk hs)
  · exact .inr (.inr h)

theorem loadBytes_ends (n : Nat) (s : State) : Ends 0 s (loadBytes n s) := by
  rcases loadBytes_cases n s with ⟨-, h⟩ | ⟨a, st, hst, ⟨-, h⟩ | ⟨t, hg, ⟨hc, h⟩ | h⟩⟩
  · exact ends_fault (by decide) (by decide) h
  · exact ends_fault (by decide) (by decide) h
  · obtain ⟨m, len, rfl, hkept⟩ := memGrow_kept hg
    exact .inr (.inl ⟨_, m, len, h, .inl (by simp [State.sp, hst]), hkept⟩)
  · exact .inr (.inr h)

/-- Everything an instruction can do. -/
theorem exec_ends (i : Instr) (s : State) : Ends i.immSize s (exec i s) := by
  cases i <;> first
    | exact binary_ends _ s
    | exact unary_ends _ s
    | exact ternary_ends _ s
    | exact pushImm_ends _ _ s
    | exact pushWord_ends _ _ s
    | exact storeBytes_ends _ s
    | exact loadBytes_ends _ s

/-- Everything a step can do: nothing outside `RUNNING`; in it, the end of the run, an invalid opcode, or the decoded
instruction. -/
theorem step_cases (s : State) :
    (s.status ≠ .running ∧ step s = stay s) ∨
    (s.status = .running ∧ s.codeLen ≤ s.pc ∧ step s = finish s) ∨
    (s.status = .running ∧ s.pc < s.codeLen ∧ ∃ b, step s = takeInvalid b s) ∨
    (s.status = .running ∧ s.pc < s.codeLen ∧ ∃ i, fetch s = .instr i ∧ step s = exec i s) := by
  cases hs : s.status with
  | running =>
    by_cases hpc : s.codeLen ≤ s.pc
    · have hf : fetch s = .endOfCode := by
        rw [fetch, List.drop_eq_nil_of_le hpc]; rfl
      exact .inr (.inl ⟨rfl, hpc, by simp [step, hs, hf]⟩)
    · have hlt : s.pc < s.code.length := Nat.lt_of_not_le hpc
      cases hf : fetch s with
      | endOfCode =>
        rw [fetch, List.drop_eq_getElem_cons hlt, decode_cons] at hf
        split at hf <;> simp at hf
      | invalidOpcode b => exact .inr (.inr (.inl ⟨rfl, hlt, b, by simp [step, hs, hf]⟩))
      | instr i => exact .inr (.inr (.inr ⟨rfl, hlt, i, rfl, by simp [step, hs, hf]⟩))
  | idle => exact .inl ⟨by decide, by simp [step, hs]⟩
  | done => exact .inl ⟨by decide, by simp [step, hs]⟩
  | fault => exact .inl ⟨by decide, by simp [step, hs]⟩

end Sys2Proof.Machine
end

