-- ==== Sys2Proof/Laws/Words.lean ====
section
/-! SUPPORT. The laws of the readings of a word (00_scope.md R12) and of square-and-multiply (41_arithmetic.md R150). -/

namespace Sys2Proof.Machine

/-- A natural number reduced to a word. -/
@[simp] theorem u256_natCast_toNat (n : Nat) : (u256 (n : Int)).toNat = n % 2 ^ 256 := by
  rw [u256, BitVec.ofInt_natCast, BitVec.toNat_ofNat]

/-- The reading of R12 is the two's-complement value of the bit vector. -/
theorem s256_eq_toInt (x : Word) : s256 x = x.toInt := by
  rw [s256, BitVec.toInt_eq_toNat_cond]
  by_cases h : x.toNat < 2 ^ 255
  · rw [if_pos h, if_pos (by omega)]
  · rw [if_neg h, if_neg (by omega)]
    norm_num

/-- What square-and-multiply leaves: the accumulator times the power, where the exponent fits the bits looked at. -/
theorem powLoop_mod (fuel base e acc : Nat) (h : e < 2 ^ fuel) :
    powLoop fuel base e acc % 2 ^ 256 = acc * base ^ e % 2 ^ 256 := by
  induction fuel generalizing base e acc with
  | zero => simp [powLoop, show e = 0 by simpa using h]
  | succ fuel ih =>
    have he : e / 2 < 2 ^ fuel := by rw [Nat.pow_succ] at h; omega
    rw [powLoop, ih _ _ _ he]
    have hsq : (base * base % 2 ^ 256) ^ (e / 2) % 2 ^ 256 = base ^ (2 * (e / 2)) % 2 ^ 256 := by
      rw [← Nat.pow_mod, pow_mul, pow_two]
    split
    · rename_i ho
      have hodd : e = 2 * (e / 2) + 1 := by omega
      rw [Nat.mul_mod, hsq, Nat.mod_mod, ← Nat.mul_mod]
      conv_rhs => rw [hodd, pow_succ]
      ring_nf
    · rename_i ho
      have heven : e = 2 * (e / 2) := by omega
      rw [Nat.mul_mod, hsq, ← Nat.mul_mod]
      conv_rhs => rw [heven]

/-- `EXP` computes the power modulo 2^256 (R150), for every base and exponent. -/
theorem expWord_toNat (a b : Word) : (expWord a b).toNat = a.toNat ^ b.toNat % 2 ^ 256 := by
  rw [expWord, u256_natCast_toNat, powLoop_mod _ _ _ _ b.isLt, Nat.one_mul]

end Sys2Proof.Machine
end

