-- ==== Sys2Proof/Tests/Slice0.lean ====
section
/-! SUPPORT. The model's own tests, each about one step or one decode, with the expected result taken from
95_test_vectors.md or from an example inside a rule; and one named witness for every statement that has hypotheses,
with a concrete state that meets them. -/

namespace Sys2Proof.Tests

open Sys2Proof.Machine Sys2Proof.Claims

/-! ### Helpers -/

/-- A running engine whose code is the given bytes, with the given stack (top first). -/
def running (code : List Byte) (st : List Word) : State :=
  { State.reset with code := code, codeLoaded := true, status := .running, stack := st }

/-- A running engine at an instruction of one byte. -/
def at1 (st : List Word) : State := running [0x01] st

/-- The same with other parameters. -/
def under (c : Config) (s : State) : State := { s with cfg := c }

/-- The words of the stack after an instruction, where it completes. -/
def stackAfter (i : Instr) (s : State) : Option (List Word) := (nextState (exec i s)).map (·.stack)

/-- The Memory length and bytes after an instruction, where it completes. -/
def memoryAfter (i : Instr) (s : State) : Option (Nat × Memory) := (nextState (exec i s)).map fun t => (t.memLen, t.mem)

/-- The status block, pc and stack after a step: `FAULT_KIND`, `FAULT_PC`, `FAULT_INFO`. -/
def blockAfter (s : State) : Option (FaultKind × Nat × Byte × Nat × List Word) :=
  (nextState (step s)).map fun t => (t.faultKind, t.faultPc, t.faultInfo, t.pc, t.stack)

/-- The word 2^256 - 1, the vectors' `MAX`. -/
def wMax : Word := BitVec.allOnes 256

/-- The word 2^255, the vectors' `MIN`. -/
def wMin : Word := BitVec.twoPow 256 255

/-- The default parameters with `SIGNED_MODE = SOURCE_UNSIGNED`. -/
def sourceUnsigned : Config := { defaultConfig with signedMode := .sourceUnsigned }

/-- The default parameters with `GROWTH_UNIT = 32`. -/
def unit32 : Config := { defaultConfig with growthUnit := 32 }

/-- The default parameters with `MEM_CAP = 64`. -/
def memCap64 : Config := { defaultConfig with memCap := some 64 }

/-- The default parameters with `STACK_CAP = 2`. -/
def stackCap2 : Config := { defaultConfig with stackCap := some 2 }

/-- The default parameters with `PUSH_PAST_END = ZERO_PAD`. -/
def zeroPad : Config := { defaultConfig with pushPastEnd := .zeroPad }

/-! ### Well-formedness: an ill-formed term for each check, an immediate one too large for its size -/

theorem test_ill_formed_push1_to_push8 :
    Instr.wellFormed (.push1 0x100) = false ∧
    Instr.wellFormed (.push2 0x10000) = false ∧
    Instr.wellFormed (.push3 0x1000000) = false ∧
    Instr.wellFormed (.push4 0x100000000) = false ∧
    Instr.wellFormed (.push5 0x10000000000) = false ∧
    Instr.wellFormed (.push6 0x1000000000000) = false ∧
    Instr.wellFormed (.push7 0x100000000000000) = false ∧
    Instr.wellFormed (.push8 0x10000000000000000) = false := by decide

theorem test_ill_formed_push9_to_push16 :
    Instr.wellFormed (.push9 0x1000000000000000000) = false ∧
    Instr.wellFormed (.push10 0x100000000000000000000) = false ∧
    Instr.wellFormed (.push11 0x10000000000000000000000) = false ∧
    Instr.wellFormed (.push12 0x1000000000000000000000000) = false ∧
    Instr.wellFormed (.push13 0x100000000000000000000000000) = false ∧
    Instr.wellFormed (.push14 0x10000000000000000000000000000) = false ∧
    Instr.wellFormed (.push15 0x1000000000000000000000000000000) = false ∧
    Instr.wellFormed (.push16 0x100000000000000000000000000000000) = false := by decide

theorem test_ill_formed_push17_to_push24 :
    Instr.wellFormed (.push17 0x10000000000000000000000000000000000) = false ∧
    Instr.wellFormed (.push18 0x1000000000000000000000000000000000000) = false ∧
    Instr.wellFormed (.push19 0x100000000000000000000000000000000000000) = false ∧
    Instr.wellFormed (.push20 0x10000000000000000000000000000000000000000) = false ∧
    Instr.wellFormed (.push21 0x1000000000000000000000000000000000000000000) = false ∧
    Instr.wellFormed (.push22 0x100000000000000000000000000000000000000000000) = false ∧
    Instr.wellFormed (.push23 0x10000000000000000000000000000000000000000000000) = false ∧
    Instr.wellFormed (.push24 0x1000000000000000000000000000000000000000000000000) = false := by decide

theorem test_ill_formed_push25_to_push31 :
    Instr.wellFormed (.push25 0x100000000000000000000000000000000000000000000000000) = false ∧
    Instr.wellFormed (.push26 0x10000000000000000000000000000000000000000000000000000) = false ∧
    Instr.wellFormed (.push27 0x1000000000000000000000000000000000000000000000000000000) = false ∧
    Instr.wellFormed (.push28 0x100000000000000000000000000000000000000000000000000000000) = false ∧
    Instr.wellFormed (.push29 0x10000000000000000000000000000000000000000000000000000000000) = false ∧
    Instr.wellFormed (.push30 0x1000000000000000000000000000000000000000000000000000000000000) = false ∧
    Instr.wellFormed (.push31 0x100000000000000000000000000000000000000000000000000000000000000) = false := by decide

/-- Every word fits the largest push (R138), and the largest immediate of a size is well formed. -/
theorem test_well_formed_edges :
    Instr.wellFormed (.push32 wMax) = true ∧ Instr.wellFormed (.push1 0xFF) = true ∧
    Instr.wellFormed (.push31 (wMax >>> 8)) = true ∧ Instr.wellFormed .push0 = true := by decide

/-! ### Decoding: words written out from the encodings of R85 and the examples of R106 to R138 -/

theorem test_decode_arithmetic :
    decode defaultOpcodeMap [0x01] = .instr .add ∧
    decode defaultOpcodeMap [0x02] = .instr .mul ∧
    decode defaultOpcodeMap [0x03] = .instr .sub ∧
    decode defaultOpcodeMap [0x04] = .instr .div ∧
    decode defaultOpcodeMap [0x05] = .instr .sdiv ∧
    decode defaultOpcodeMap [0x06] = .instr .mod ∧
    decode defaultOpcodeMap [0x07] = .instr .smod ∧
    decode defaultOpcodeMap [0x08] = .instr .addmod ∧
    decode defaultOpcodeMap [0x09] = .instr .mulmod ∧
    decode defaultOpcodeMap [0x0A] = .instr .exp ∧
    decode defaultOpcodeMap [0x0B] = .instr .signextend := by decide

theorem test_decode_comparison :
    decode defaultOpcodeMap [0x10] = .instr .lt ∧
    decode defaultOpcodeMap [0x11] = .instr .gt ∧
    decode defaultOpcodeMap [0x12] = .instr .slt ∧
    decode defaultOpcodeMap [0x13] = .instr .sgt ∧
    decode defaultOpcodeMap [0x14] = .instr .eq ∧
    decode defaultOpcodeMap [0x15] = .instr .iszero := by decide

theorem test_decode_bitwise :
    decode defaultOpcodeMap [0x16] = .instr .and ∧
    decode defaultOpcodeMap [0x17] = .instr .or ∧
    decode defaultOpcodeMap [0x18] = .instr .xor ∧
    decode defaultOpcodeMap [0x19] = .instr .not ∧
    decode defaultOpcodeMap [0x1A] = .instr .byte ∧
    decode defaultOpcodeMap [0x1B] = .instr .shl ∧
    decode defaultOpcodeMap [0x1C] = .instr .shr ∧
    decode defaultOpcodeMap [0x1D] = .instr .sar := by decide

theorem test_decode_memory :
    decode defaultOpcodeMap [0x51] = .instr .mload ∧
    decode defaultOpcodeMap [0x52] = .instr .mstore ∧
    decode defaultOpcodeMap [0x53] = .instr .mstore8 ∧
    decode defaultOpcodeMap [0x59] = .instr .msize := by decide

theorem test_decode_push0 : decode defaultOpcodeMap [0x5F] = .instr .push0 := by decide

theorem test_decode_push1_to_push4 :
    decode defaultOpcodeMap
      [0x60, 0x02] =
      .instr (.push1 0x2) ∧
    decode defaultOpcodeMap
      [0x61, 0xA2, 0xB3] =
      .instr (.push2 0xA2B3) ∧
    decode defaultOpcodeMap
      [0x62, 0xA3, 0xB4, 0xC5] =
      .instr (.push3 0xA3B4C5) ∧
    decode defaultOpcodeMap
      [0x63, 0xA4, 0xB5, 0xC6, 0xD7] =
      .instr (.push4 0xA4B5C6D7) := by decide

theorem test_decode_push5_to_push8 :
    decode defaultOpcodeMap
      [0x64, 0xA5, 0xB6, 0xC7, 0xD8, 0xE9] =
      .instr (.push5 0xA5B6C7D8E9) ∧
    decode defaultOpcodeMap
      [0x65, 0xA6, 0xB7, 0xC8, 0xD9, 0xEA, 0xFB] =
      .instr (.push6 0xA6B7C8D9EAFB) ∧
    decode defaultOpcodeMap
      [0x66, 0xA7, 0xB8, 0xC9, 0xDA, 0xEB, 0xFC, 0x0D] =
      .instr (.push7 0xA7B8C9DAEBFC0D) ∧
    decode defaultOpcodeMap
      [0x67, 0xA8, 0xB9, 0xCA, 0xDB, 0xEC, 0xFD, 0x0E, 0x1F] =
      .instr (.push8 0xA8B9CADBECFD0E1F) := by decide

theorem test_decode_push9_to_push12 :
    decode defaultOpcodeMap
      [0x68, 0xA9, 0xBA, 0xCB, 0xDC, 0xED, 0xFE, 0x0F, 0x20, 0x31] =
      .instr (.push9 0xA9BACBDCEDFE0F2031) ∧
    decode defaultOpcodeMap
      [0x69, 0xAA, 0xBB, 0xCC, 0xDD, 0xEE, 0xFF, 0x10, 0x21, 0x32, 0x43] =
      .instr (.push10 0xAABBCCDDEEFF10213243) ∧
    decode defaultOpcodeMap
      [0x6A, 0xAB, 0xBC, 0xCD, 0xDE, 0xEF, 0x00, 0x11, 0x22, 0x33, 0x44, 0x55] =
      .instr (.push11 0xABBCCDDEEF001122334455) ∧
    decode defaultOpcodeMap
      [0x6B, 0xAC, 0xBD, 0xCE, 0xDF, 0xF0, 0x01, 0x12, 0x23, 0x34, 0x45, 0x56, 0x67] =
      .instr (.push12 0xACBDCEDFF001122334455667) := by decide

theorem test_decode_push13_to_push16 :
    decode defaultOpcodeMap
      [0x6C, 0xAD, 0xBE, 0xCF, 0xE0, 0xF1, 0x02, 0x13, 0x24, 0x35, 0x46, 0x57, 0x68, 0x79] =
      .instr (.push13 0xADBECFE0F10213243546576879) ∧
    decode defaultOpcodeMap
      [0x6D, 0xAE, 0xBF, 0xD0, 0xE1, 0xF2, 0x03, 0x14, 0x25, 0x36, 0x47, 0x58, 0x69, 0x7A, 0x8B] =
      .instr (.push14 0xAEBFD0E1F2031425364758697A8B) ∧
    decode defaultOpcodeMap
      [0x6E, 0xAF, 0xC0, 0xD1, 0xE2, 0xF3, 0x04, 0x15, 0x26, 0x37, 0x48, 0x59, 0x6A, 0x7B, 0x8C, 0x9D] =
      .instr (.push15 0xAFC0D1E2F30415263748596A7B8C9D) ∧
    decode defaultOpcodeMap
      [0x6F, 0xB0, 0xC1, 0xD2, 0xE3, 0xF4, 0x05, 0x16, 0x27, 0x38, 0x49, 0x5A, 0x6B, 0x7C, 0x8D, 0x9E,
      0xAF] =
      .instr (.push16 0xB0C1D2E3F405162738495A6B7C8D9EAF) := by decide

theorem test_decode_push17_to_push20 :
    decode defaultOpcodeMap
      [0x70, 0xB1, 0xC2, 0xD3, 0xE4, 0xF5, 0x06, 0x17, 0x28, 0x39, 0x4A, 0x5B, 0x6C, 0x7D, 0x8E, 0x9F,
      0xB0, 0xC1] =
      .instr (.push17 0xB1C2D3E4F5061728394A5B6C7D8E9FB0C1) ∧
    decode defaultOpcodeMap
      [0x71, 0xB2, 0xC3, 0xD4, 0xE5, 0xF6, 0x07, 0x18, 0x29, 0x3A, 0x4B, 0x5C, 0x6D, 0x7E, 0x8F, 0xA0,
      0xB1, 0xC2, 0xD3] =
      .instr (.push18 0xB2C3D4E5F60718293A4B5C6D7E8FA0B1C2D3) ∧
    decode defaultOpcodeMap
      [0x72, 0xB3, 0xC4, 0xD5, 0xE6, 0xF7, 0x08, 0x19, 0x2A, 0x3B, 0x4C, 0x5D, 0x6E, 0x7F, 0x90, 0xA1,
      0xB2, 0xC3, 0xD4, 0xE5] =
      .instr (.push19 0xB3C4D5E6F708192A3B4C5D6E7F90A1B2C3D4E5) ∧
    decode defaultOpcodeMap
      [0x73, 0xB4, 0xC5, 0xD6, 0xE7, 0xF8, 0x09, 0x1A, 0x2B, 0x3C, 0x4D, 0x5E, 0x6F, 0x80, 0x91, 0xA2,
      0xB3, 0xC4, 0xD5, 0xE6, 0xF7] =
      .instr (.push20 0xB4C5D6E7F8091A2B3C4D5E6F8091A2B3C4D5E6F7) := by decide

theorem test_decode_push21_to_push24 :
    decode defaultOpcodeMap
      [0x74, 0xB5, 0xC6, 0xD7, 0xE8, 0xF9, 0x0A, 0x1B, 0x2C, 0x3D, 0x4E, 0x5F, 0x70, 0x81, 0x92, 0xA3,
      0xB4, 0xC5, 0xD6, 0xE7, 0xF8, 0x09] =
      .instr (.push21 0xB5C6D7E8F90A1B2C3D4E5F708192A3B4C5D6E7F809) ∧
    decode defaultOpcodeMap
      [0x75, 0xB6, 0xC7, 0xD8, 0xE9, 0xFA, 0x0B, 0x1C, 0x2D, 0x3E, 0x4F, 0x60, 0x71, 0x82, 0x93, 0xA4,
      0xB5, 0xC6, 0xD7, 0xE8, 0xF9, 0x0A, 0x1B] =
      .instr (.push22 0xB6C7D8E9FA0B1C2D3E4F60718293A4B5C6D7E8F90A1B) ∧
    decode defaultOpcodeMap
      [0x76, 0xB7, 0xC8, 0xD9, 0xEA, 0xFB, 0x0C, 0x1D, 0x2E, 0x3F, 0x50, 0x61, 0x72, 0x83, 0x94, 0xA5,
      0xB6, 0xC7, 0xD8, 0xE9, 0xFA, 0x0B, 0x1C, 0x2D] =
      .instr (.push23 0xB7C8D9EAFB0C1D2E3F5061728394A5B6C7D8E9FA0B1C2D) ∧
    decode defaultOpcodeMap
      [0x77, 0xB8, 0xC9, 0xDA, 0xEB, 0xFC, 0x0D, 0x1E, 0x2F, 0x40, 0x51, 0x62, 0x73, 0x84, 0x95, 0xA6,
      0xB7, 0xC8, 0xD9, 0xEA, 0xFB, 0x0C, 0x1D, 0x2E, 0x3F] =
      .instr (.push24 0xB8C9DAEBFC0D1E2F405162738495A6B7C8D9EAFB0C1D2E3F) := by decide

theorem test_decode_push25_to_push28 :
    decode defaultOpcodeMap
      [0x78, 0xB9, 0xCA, 0xDB, 0xEC, 0xFD, 0x0E, 0x1F, 0x30, 0x41, 0x52, 0x63, 0x74, 0x85, 0x96, 0xA7,
      0xB8, 0xC9, 0xDA, 0xEB, 0xFC, 0x0D, 0x1E, 0x2F, 0x40, 0x51] =
      .instr (.push25 0xB9CADBECFD0E1F30415263748596A7B8C9DAEBFC0D1E2F4051) ∧
    decode defaultOpcodeMap
      [0x79, 0xBA, 0xCB, 0xDC, 0xED, 0xFE, 0x0F, 0x20, 0x31, 0x42, 0x53, 0x64, 0x75, 0x86, 0x97, 0xA8,
      0xB9, 0xCA, 0xDB, 0xEC, 0xFD, 0x0E, 0x1F, 0x30, 0x41, 0x52, 0x63] =
      .instr (.push26 0xBACBDCEDFE0F2031425364758697A8B9CADBECFD0E1F30415263) ∧
    decode defaultOpcodeMap
      [0x7A, 0xBB, 0xCC, 0xDD, 0xEE, 0xFF, 0x10, 0x21, 0x32, 0x43, 0x54, 0x65, 0x76, 0x87, 0x98, 0xA9,
      0xBA, 0xCB, 0xDC, 0xED, 0xFE, 0x0F, 0x20, 0x31, 0x42, 0x53, 0x64, 0x75] =
      .instr (.push27 0xBBCCDDEEFF102132435465768798A9BACBDCEDFE0F203142536475) ∧
    decode defaultOpcodeMap
      [0x7B, 0xBC, 0xCD, 0xDE, 0xEF, 0x00, 0x11, 0x22, 0x33, 0x44, 0x55, 0x66, 0x77, 0x88, 0x99, 0xAA,
      0xBB, 0xCC, 0xDD, 0xEE, 0xFF, 0x10, 0x21, 0x32, 0x43, 0x54, 0x65, 0x76, 0x87] =
      .instr (.push28 0xBCCDDEEF00112233445566778899AABBCCDDEEFF1021324354657687) := by decide

theorem test_decode_push29_to_push32 :
    decode defaultOpcodeMap
      [0x7C, 0xBD, 0xCE, 0xDF, 0xF0, 0x01, 0x12, 0x23, 0x34, 0x45, 0x56, 0x67, 0x78, 0x89, 0x9A, 0xAB,
      0xBC, 0xCD, 0xDE, 0xEF, 0x00, 0x11, 0x22, 0x33, 0x44, 0x55, 0x66, 0x77, 0x88, 0x99] =
      .instr (.push29 0xBDCEDFF00112233445566778899AABBCCDDEEF00112233445566778899) ∧
    decode defaultOpcodeMap
      [0x7D, 0xBE, 0xCF, 0xE0, 0xF1, 0x02, 0x13, 0x24, 0x35, 0x46, 0x57, 0x68, 0x79, 0x8A, 0x9B, 0xAC,
      0xBD, 0xCE, 0xDF, 0xF0, 0x01, 0x12, 0x23, 0x34, 0x45, 0x56, 0x67, 0x78, 0x89, 0x9A, 0xAB] =
      .instr (.push30 0xBECFE0F102132435465768798A9BACBDCEDFF00112233445566778899AAB) ∧
    decode defaultOpcodeMap
      [0x7E, 0xBF, 0xD0, 0xE1, 0xF2, 0x03, 0x14, 0x25, 0x36, 0x47, 0x58, 0x69, 0x7A, 0x8B, 0x9C, 0xAD,
      0xBE, 0xCF, 0xE0, 0xF1, 0x02, 0x13, 0x24, 0x35, 0x46, 0x57, 0x68, 0x79, 0x8A, 0x9B, 0xAC, 0xBD] =
      .instr (.push31 0xBFD0E1F2031425364758697A8B9CADBECFE0F102132435465768798A9BACBD) ∧
    decode defaultOpcodeMap
      [0x7F, 0xC0, 0xD1, 0xE2, 0xF3, 0x04, 0x15, 0x26, 0x37, 0x48, 0x59, 0x6A, 0x7B, 0x8C, 0x9D, 0xAE,
      0xBF, 0xD0, 0xE1, 0xF2, 0x03, 0x14, 0x25, 0x36, 0x47, 0x58, 0x69, 0x7A, 0x8B, 0x9C, 0xAD, 0xBE,
      0xCF] =
      .instr (.push32 0xC0D1E2F30415263748596A7B8C9DAEBFD0E1F2031425364758697A8B9CADBECF) := by decide

/-- R87 and the instances of vector S3: bytes that are no opcode. -/
theorem test_decode_invalid :
    decode defaultOpcodeMap [0xFF] = .invalidOpcode 0xFF ∧ decode defaultOpcodeMap [0x00] = .invalidOpcode 0x00 ∧
    decode defaultOpcodeMap [0x0C] = .invalidOpcode 0x0C ∧ decode defaultOpcodeMap [0x50] = .invalidOpcode 0x50 ∧
    decode defaultOpcodeMap [0x5E, 0x01] = .invalidOpcode 0x5E ∧ decode defaultOpcodeMap [0x80] = .invalidOpcode 0x80 ∧
    decode defaultOpcodeMap [] = .endOfCode := by decide

/-- R101 and R84: an immediate byte is never decoded as an opcode; what follows the instruction is not read. -/
theorem test_decode_stops_at_length :
    decode defaultOpcodeMap [0x60, 0xFF, 0x01] = .instr (.push1 0xFF) ∧
    decode defaultOpcodeMap [0x61, 0x00, 0x0A, 0x60] = .instr (.push2 0x0A) := by decide

/-- No two rows of R85 share a byte or an operation (R86). -/
theorem test_map_valid : mapValid defaultOpcodeMap = true := by decide

/-- The encoder on the scenario of vector S1, `60 02 60 20 52`. -/
theorem test_encode_store_scenario :
    encode defaultOpcodeMap (.push1 2) = some [0x60, 0x02] ∧ encode defaultOpcodeMap (.push1 0x20) = some [0x60, 0x20] ∧
    encode defaultOpcodeMap .mstore = some [0x52] := by decide

/-- The pseudo-instruction of R91: the least size that holds the value. -/
theorem test_assemble_push :
    assemblePush 0 = .push0 ∧ assemblePush 5 = .push1 5 ∧ assemblePush 0xFF = .push1 0xFF ∧
    assemblePush 0x100 = .push2 0x100 ∧ assemblePush wMax = .push32 wMax := by decide

/-- The table's numbering of the bits: the first byte is the lowest. Missing bytes are zero. -/
theorem test_table_word :
    decodeTableWord 8 0x01 = some .add ∧ decodeTableWord 16 0x0560 = some (.push1 5) ∧
    decodeTableWord 8 0x7F = some (.push32 0) ∧ decodeTableWord 24 0xB3A261 = some (.push2 0xA2B3) ∧
    decodeTableWord 8 0xFE = none := by decide

/-! ### One step of each instruction -/

/-- Vector V2: the carry is lost. -/
theorem test_add_wraps : stackAfter .add (at1 [0x1, wMax]) = some [0x0] := by
  decide

/-- Vector V2: the low half of the product. -/
theorem test_mul_wraps : stackAfter .mul (at1 [wMax, wMax]) = some [0x1] := by
  decide

/-- Vector V2: the top minus the second. -/
theorem test_sub_first_minus_second : stackAfter .sub (at1 [0x3, 0x5]) = some [(-0x2)] := by
  decide

/-- Vector V2, FLAG `SUB_ORDER`. -/
theorem test_sub_second_minus_first :
    stackAfter .sub (under { defaultConfig with subOrder := .secondMinusFirst } (at1 [0x3, 0x5])) = some [0x2] := by decide

/-- Vector V2: 7 // 2, the top is the divisor. -/
theorem test_div_divisor_on_top : stackAfter .div (at1 [0x2, 0x7]) = some [0x3] := by
  decide

/-- Vector V2: divisor 0 gives 0. -/
theorem test_div_by_zero : stackAfter .div (at1 [0x0, 0x7]) = some [0x0] := by
  decide

/-- Vector V2: -7 / 2 is -3. -/
theorem test_sdiv_toward_zero : stackAfter .sdiv (at1 [0x2, (-0x7)]) = some [(-0x3)] := by
  decide

/-- Vector V2, FLAG `SIGNED_MODE`. -/
theorem test_sdiv_source_unsigned : stackAfter .sdiv (under sourceUnsigned (at1 [0x2, (-0x7)])) = some [0x7FFFFFFFFFFFFFFFFFFFFFFFFFFFFFFFFFFFFFFFFFFFFFFFFFFFFFFFFFFFFFFC] := by
  decide

/-- Vector V2: 3 % 7. -/
theorem test_mod_divisor_on_top : stackAfter .mod (at1 [0x7, 0x3]) = some [0x3] := by
  decide

/-- Vector V2: -7 rem -3 is -1. -/
theorem test_smod_sign_of_dividend : stackAfter .smod (at1 [(-0x3), (-0x7)]) = some [wMax] := by
  decide

/-- Vector V2, FLAG `SIGNED_MODE`. -/
theorem test_smod_source_unsigned : stackAfter .smod (under sourceUnsigned (at1 [(-0x3), 0x7])) = some [0x7] := by
  decide

/-- Vector V2: the wrapped sum would give 0. -/
theorem test_addmod_exact_sum : stackAfter .addmod (at1 [0x1, wMax, wMax]) = some [0x1] := by
  decide

/-- Vector V2: (2^256 - 1)^2 mod 12. -/
theorem test_mulmod_exact_product : stackAfter .mulmod (at1 [wMax, wMax, 0xC]) = some [0x9] := by
  decide

/-- Vector V2: 2^10. -/
theorem test_exp_base_on_top : stackAfter .exp (at1 [0x2, 0xA]) = some [0x400] := by
  decide +kernel

/-- Vector V2: 3^(2^256 - 1), the regression value. -/
theorem test_exp_huge_exponent : stackAfter .exp (at1 [0x3, wMax]) = some [0xAAAAAAAAAAAAAAAAAAAAAAAAAAAAAAAAAAAAAAAAAAAAAAAAAAAAAAAAAAAAAAAB] := by
  decide +kernel

/-- Vector V2: bits above the field are replaced. -/
theorem test_signextend_discards_high_bits : stackAfter .signextend (at1 [0x0, 0x12FF]) = some [wMax] := by
  decide

/-- Vector V2: bit 247 is the sign, bit 255 is cleared. -/
theorem test_signextend_count_30 : stackAfter .signextend (at1 [0x1E, wMin]) = some [0x0] := by
  decide

/-- Vector V3: 1 < 2 with 2 on top. -/
theorem test_lt_second_below_top : stackAfter .lt (at1 [0x2, 0x1]) = some [0x1] := by
  decide

/-- Vector V3: MAX < 0 is false. -/
theorem test_lt_unsigned : stackAfter .lt (at1 [0x0, wMax]) = some [0x0] := by
  decide

/-- Vector V3: 2 > 1 with 1 on top. -/
theorem test_gt_second_above_top : stackAfter .gt (at1 [0x1, 0x2]) = some [0x1] := by
  decide

/-- Vector V3: -2^255 < 2^255 - 1. -/
theorem test_slt_extremes : stackAfter .slt (at1 [(wMin - 1), wMin]) = some [0x1] := by
  decide

/-- Vector V3 and D9: -1 < 0 in every `SIGNED_MODE`. -/
theorem test_slt_signed_in_both_modes : stackAfter .slt (under sourceUnsigned (at1 [0x0, wMax])) = some [0x1] := by
  decide

/-- Vector V3: 2^255 - 1 > -2^255. -/
theorem test_sgt_extremes : stackAfter .sgt (at1 [wMin, (wMin - 1)]) = some [0x1] := by
  decide

/-- Vector V3: bit 255 counts. -/
theorem test_eq_top_bit : stackAfter .eq (at1 [0x0, wMin]) = some [0x0] := by
  decide

/-- Vector V3: the word below is untouched. -/
theorem test_iszero_word_below_stays : stackAfter .iszero (at1 [0x0, 0x9]) = some [0x1, 0x9] := by
  decide

/-- Vector V4. -/
theorem test_and_bits : stackAfter .and (at1 [0xFF0, 0xFF00]) = some [0xF00] := by
  decide

/-- Vector V4. -/
theorem test_or_bits : stackAfter .or (at1 [0xFF0, 0xFF00]) = some [0xFFF0] := by
  decide

/-- Vector V4. -/
theorem test_xor_bits : stackAfter .xor (at1 [0xFF0, 0xFF00]) = some [0xF0F0] := by
  decide

/-- Vector V4. -/
theorem test_not_bits : stackAfter .not (at1 [0x1234]) = some [(-0x1235)] := by
  decide

/-- Vector V4: index 31 would be the least significant byte. -/
theorem test_byte_index_30 : stackAfter .byte (at1 [0x1E, 0xAABB]) = some [0xAA] := by
  decide

/-- Vector V4: index 256 gives 0. -/
theorem test_byte_index_not_reduced : stackAfter .byte (at1 [0x100, wMax]) = some [0x0] := by
  decide

/-- Vector V4: into bit 255. -/
theorem test_shl_top_bit : stackAfter .shl (at1 [0xFF, 0x1]) = some [wMin] := by
  decide

/-- Vector V4: a huge amount gives 0. -/
theorem test_shl_huge_amount : stackAfter .shl (at1 [wMax, wMax]) = some [0x0] := by
  decide

/-- Vector V4: zero enters at the top. -/
theorem test_shr_zero_enters : stackAfter .shr (at1 [0x1, wMax]) = some [(wMin - 1)] := by
  decide

/-- Vector V4: amount 256 gives 0. -/
theorem test_shr_256 : stackAfter .shr (at1 [0x100, wMin]) = some [0x0] := by
  decide

/-- Vector V4: floor(-7 / 2) is -4. -/
theorem test_sar_rounds_down : stackAfter .sar (at1 [0x1, (-0x7)]) = some [(-0x4)] := by
  decide

/-- Vector V4, FLAG `SIGNED_MODE`. -/
theorem test_sar_source_unsigned : stackAfter .sar (under sourceUnsigned (at1 [0xFF, wMin])) = some [0x1] := by
  decide

/-- Scenario S1: byte 2 at offset 0x3F, length 64. -/
theorem test_mstore_scenario : memoryAfter .mstore (at1 [0x20, 0x02]) = some (64, [(0x3F, 0x02)]) := by decide

/-- R60: the end of the access is 2^256 + 31; nothing wraps. -/
theorem test_mstore_at_max : memoryAfter .mstore (at1 [wMax, 5]) = some (2 ^ 256 + 31, [(2 ^ 256 + 30, 5)]) := by decide

/-- Vector V5: only the low 8 bits, and a length of 1. -/
theorem test_mstore8_low_byte : memoryAfter .mstore8 (at1 [0x0, 0x1234]) = some (1, [(0, 0x34)]) := by decide

/-- Vector V5, FLAG `GROWTH_UNIT`. -/
theorem test_mstore8_unit_32 : memoryAfter .mstore8 (under unit32 (at1 [0x0, 0xFF])) = some (32, [(0, 0xFF)]) := by decide

/-- Vector V5: the byte at the offset is the most significant of the loaded word. -/
theorem test_mload_most_significant_first :
    stackAfter .mload { at1 [0x3] with memLen := 4, mem := [(3, 0xAA)] } =
      some [0xAA00000000000000000000000000000000000000000000000000000000000000] := by decide

/-- Vector V5: a load at 5 makes the length 37. -/
theorem test_mload_grows : memoryAfter .mload (at1 [0x5]) = some (37, []) := by decide

/-- Vector V5: the length after a store at 32 is 64. -/
theorem test_msize_pushes_length : stackAfter .msize { at1 [] with memLen := 64 } = some [0x40] := by decide

/-- Vector V6: a full stack. -/
theorem test_msize_full_stack :
    blockAfter (under stackCap2 { running [0x60, 0x01, 0x60, 0x02, 0x59] [0x2, 0x1] with pc := 4 }) =
      some (.stackOverflow, 4, 0x00, 5, [0x2, 0x1]) := by decide

/-- The stack and the pc after one step on a code. -/
def pushed (code : List Byte) : Option (List Word × Nat) :=
  (nextState (step (running code []))).map fun t => (t.stack, t.pc)

/-- R106. -/
theorem test_push0 : pushed [0x5F] = some ([0x0], 1) := by decide

/-- R107, its example. -/
theorem test_push1 :
    pushed
      [0x60, 0x02] =
      some ([0x2], 2) := by decide

/-- R108, its example. -/
theorem test_push2 :
    pushed
      [0x61, 0xA2, 0xB3] =
      some ([0xA2B3], 3) := by decide

/-- R109, its example. -/
theorem test_push3 :
    pushed
      [0x62, 0xA3, 0xB4, 0xC5] =
      some ([0xA3B4C5], 4) := by decide

/-- R110, its example. -/
theorem test_push4 :
    pushed
      [0x63, 0xA4, 0xB5, 0xC6, 0xD7] =
      some ([0xA4B5C6D7], 5) := by decide

/-- R111, its example. -/
theorem test_push5 :
    pushed
      [0x64, 0xA5, 0xB6, 0xC7, 0xD8, 0xE9] =
      some ([0xA5B6C7D8E9], 6) := by decide

/-- R112, its example. -/
theorem test_push6 :
    pushed
      [0x65, 0xA6, 0xB7, 0xC8, 0xD9, 0xEA, 0xFB] =
      some ([0xA6B7C8D9EAFB], 7) := by decide

/-- R113, its example. -/
theorem test_push7 :
    pushed
      [0x66, 0xA7, 0xB8, 0xC9, 0xDA, 0xEB, 0xFC, 0x0D] =
      some ([0xA7B8C9DAEBFC0D], 8) := by decide

/-- R114, its example. -/
theorem test_push8 :
    pushed
      [0x67, 0xA8, 0xB9, 0xCA, 0xDB, 0xEC, 0xFD, 0x0E, 0x1F] =
      some ([0xA8B9CADBECFD0E1F], 9) := by decide

/-- R115, its example. -/
theorem test_push9 :
    pushed
      [0x68, 0xA9, 0xBA, 0xCB, 0xDC, 0xED, 0xFE, 0x0F, 0x20, 0x31] =
      some ([0xA9BACBDCEDFE0F2031], 10) := by decide

/-- R116, its example. -/
theorem test_push10 :
    pushed
      [0x69, 0xAA, 0xBB, 0xCC, 0xDD, 0xEE, 0xFF, 0x10, 0x21, 0x32, 0x43] =
      some ([0xAABBCCDDEEFF10213243], 11) := by decide

/-- R117, its example. -/
theorem test_push11 :
    pushed
      [0x6A, 0xAB, 0xBC, 0xCD, 0xDE, 0xEF, 0x00, 0x11, 0x22, 0x33, 0x44, 0x55] =
      some ([0xABBCCDDEEF001122334455], 12) := by decide

/-- R118, its example. -/
theorem test_push12 :
    pushed
      [0x6B, 0xAC, 0xBD, 0xCE, 0xDF, 0xF0, 0x01, 0x12, 0x23, 0x34, 0x45, 0x56, 0x67] =
      some ([0xACBDCEDFF001122334455667], 13) := by decide

/-- R119, its example. -/
theorem test_push13 :
    pushed
      [0x6C, 0xAD, 0xBE, 0xCF, 0xE0, 0xF1, 0x02, 0x13, 0x24, 0x35, 0x46, 0x57, 0x68, 0x79] =
      some ([0xADBECFE0F10213243546576879], 14) := by decide

/-- R120, its example. -/
theorem test_push14 :
    pushed
      [0x6D, 0xAE, 0xBF, 0xD0, 0xE1, 0xF2, 0x03, 0x14, 0x25, 0x36, 0x47, 0x58, 0x69, 0x7A, 0x8B] =
      some ([0xAEBFD0E1F2031425364758697A8B], 15) := by decide

/-- R121, its example. -/
theorem test_push15 :
    pushed
      [0x6E, 0xAF, 0xC0, 0xD1, 0xE2, 0xF3, 0x04, 0x15, 0x26, 0x37, 0x48, 0x59, 0x6A, 0x7B, 0x8C, 0x9D] =
      some ([0xAFC0D1E2F30415263748596A7B8C9D], 16) := by decide

/-- R122, its example. -/
theorem test_push16 :
    pushed
      [0x6F, 0xB0, 0xC1, 0xD2, 0xE3, 0xF4, 0x05, 0x16, 0x27, 0x38, 0x49, 0x5A, 0x6B, 0x7C, 0x8D, 0x9E,
      0xAF] =
      some ([0xB0C1D2E3F405162738495A6B7C8D9EAF], 17) := by decide

/-- R123, its example. -/
theorem test_push17 :
    pushed
      [0x70, 0xB1, 0xC2, 0xD3, 0xE4, 0xF5, 0x06, 0x17, 0x28, 0x39, 0x4A, 0x5B, 0x6C, 0x7D, 0x8E, 0x9F,
      0xB0, 0xC1] =
      some ([0xB1C2D3E4F5061728394A5B6C7D8E9FB0C1], 18) := by decide

/-- R124, its example. -/
theorem test_push18 :
    pushed
      [0x71, 0xB2, 0xC3, 0xD4, 0xE5, 0xF6, 0x07, 0x18, 0x29, 0x3A, 0x4B, 0x5C, 0x6D, 0x7E, 0x8F, 0xA0,
      0xB1, 0xC2, 0xD3] =
      some ([0xB2C3D4E5F60718293A4B5C6D7E8FA0B1C2D3], 19) := by decide

/-- R125, its example. -/
theorem test_push19 :
    pushed
      [0x72, 0xB3, 0xC4, 0xD5, 0xE6, 0xF7, 0x08, 0x19, 0x2A, 0x3B, 0x4C, 0x5D, 0x6E, 0x7F, 0x90, 0xA1,
      0xB2, 0xC3, 0xD4, 0xE5] =
      some ([0xB3C4D5E6F708192A3B4C5D6E7F90A1B2C3D4E5], 20) := by decide

/-- R126, its example. -/
theorem test_push20 :
    pushed
      [0x73, 0xB4, 0xC5, 0xD6, 0xE7, 0xF8, 0x09, 0x1A, 0x2B, 0x3C, 0x4D, 0x5E, 0x6F, 0x80, 0x91, 0xA2,
      0xB3, 0xC4, 0xD5, 0xE6, 0xF7] =
      some ([0xB4C5D6E7F8091A2B3C4D5E6F8091A2B3C4D5E6F7], 21) := by decide

/-- R127, its example. -/
theorem test_push21 :
    pushed
      [0x74, 0xB5, 0xC6, 0xD7, 0xE8, 0xF9, 0x0A, 0x1B, 0x2C, 0x3D, 0x4E, 0x5F, 0x70, 0x81, 0x92, 0xA3,
      0xB4, 0xC5, 0xD6, 0xE7, 0xF8, 0x09] =
      some ([0xB5C6D7E8F90A1B2C3D4E5F708192A3B4C5D6E7F809], 22) := by decide

/-- R128, its example. -/
theorem test_push22 :
    pushed
      [0x75, 0xB6, 0xC7, 0xD8, 0xE9, 0xFA, 0x0B, 0x1C, 0x2D, 0x3E, 0x4F, 0x60, 0x71, 0x82, 0x93, 0xA4,
      0xB5, 0xC6, 0xD7, 0xE8, 0xF9, 0x0A, 0x1B] =
      some ([0xB6C7D8E9FA0B1C2D3E4F60718293A4B5C6D7E8F90A1B], 23) := by decide

/-- R129, its example. -/
theorem test_push23 :
    pushed
      [0x76, 0xB7, 0xC8, 0xD9, 0xEA, 0xFB, 0x0C, 0x1D, 0x2E, 0x3F, 0x50, 0x61, 0x72, 0x83, 0x94, 0xA5,
      0xB6, 0xC7, 0xD8, 0xE9, 0xFA, 0x0B, 0x1C, 0x2D] =
      some ([0xB7C8D9EAFB0C1D2E3F5061728394A5B6C7D8E9FA0B1C2D], 24) := by decide

/-- R130, its example. -/
theorem test_push24 :
    pushed
      [0x77, 0xB8, 0xC9, 0xDA, 0xEB, 0xFC, 0x0D, 0x1E, 0x2F, 0x40, 0x51, 0x62, 0x73, 0x84, 0x95, 0xA6,
      0xB7, 0xC8, 0xD9, 0xEA, 0xFB, 0x0C, 0x1D, 0x2E, 0x3F] =
      some ([0xB8C9DAEBFC0D1E2F405162738495A6B7C8D9EAFB0C1D2E3F], 25) := by decide

/-- R131, its example. -/
theorem test_push25 :
    pushed
      [0x78, 0xB9, 0xCA, 0xDB, 0xEC, 0xFD, 0x0E, 0x1F, 0x30, 0x41, 0x52, 0x63, 0x74, 0x85, 0x96, 0xA7,
      0xB8, 0xC9, 0xDA, 0xEB, 0xFC, 0x0D, 0x1E, 0x2F, 0x40, 0x51] =
      some ([0xB9CADBECFD0E1F30415263748596A7B8C9DAEBFC0D1E2F4051], 26) := by decide

/-- R132, its example. -/
theorem test_push26 :
    pushed
      [0x79, 0xBA, 0xCB, 0xDC, 0xED, 0xFE, 0x0F, 0x20, 0x31, 0x42, 0x53, 0x64, 0x75, 0x86, 0x97, 0xA8,
      0xB9, 0xCA, 0xDB, 0xEC, 0xFD, 0x0E, 0x1F, 0x30, 0x41, 0x52, 0x63] =
      some ([0xBACBDCEDFE0F2031425364758697A8B9CADBECFD0E1F30415263], 27) := by decide

/-- R133, its example. -/
theorem test_push27 :
    pushed
      [0x7A, 0xBB, 0xCC, 0xDD, 0xEE, 0xFF, 0x10, 0x21, 0x32, 0x43, 0x54, 0x65, 0x76, 0x87, 0x98, 0xA9,
      0xBA, 0xCB, 0xDC, 0xED, 0xFE, 0x0F, 0x20, 0x31, 0x42, 0x53, 0x64, 0x75] =
      some ([0xBBCCDDEEFF102132435465768798A9BACBDCEDFE0F203142536475], 28) := by decide

/-- R134, its example. -/
theorem test_push28 :
    pushed
      [0x7B, 0xBC, 0xCD, 0xDE, 0xEF, 0x00, 0x11, 0x22, 0x33, 0x44, 0x55, 0x66, 0x77, 0x88, 0x99, 0xAA,
      0xBB, 0xCC, 0xDD, 0xEE, 0xFF, 0x10, 0x21, 0x32, 0x43, 0x54, 0x65, 0x76, 0x87] =
      some ([0xBCCDDEEF00112233445566778899AABBCCDDEEFF1021324354657687], 29) := by decide

/-- R135, its example. -/
theorem test_push29 :
    pushed
      [0x7C, 0xBD, 0xCE, 0xDF, 0xF0, 0x01, 0x12, 0x23, 0x34, 0x45, 0x56, 0x67, 0x78, 0x89, 0x9A, 0xAB,
      0xBC, 0xCD, 0xDE, 0xEF, 0x00, 0x11, 0x22, 0x33, 0x44, 0x55, 0x66, 0x77, 0x88, 0x99] =
      some ([0xBDCEDFF00112233445566778899AABBCCDDEEF00112233445566778899], 30) := by decide

/-- R136, its example. -/
theorem test_push30 :
    pushed
      [0x7D, 0xBE, 0xCF, 0xE0, 0xF1, 0x02, 0x13, 0x24, 0x35, 0x46, 0x57, 0x68, 0x79, 0x8A, 0x9B, 0xAC,
      0xBD, 0xCE, 0xDF, 0xF0, 0x01, 0x12, 0x23, 0x34, 0x45, 0x56, 0x67, 0x78, 0x89, 0x9A, 0xAB] =
      some ([0xBECFE0F102132435465768798A9BACBDCEDFF00112233445566778899AAB], 31) := by decide

/-- R137, its example. -/
theorem test_push31 :
    pushed
      [0x7E, 0xBF, 0xD0, 0xE1, 0xF2, 0x03, 0x14, 0x25, 0x36, 0x47, 0x58, 0x69, 0x7A, 0x8B, 0x9C, 0xAD,
      0xBE, 0xCF, 0xE0, 0xF1, 0x02, 0x13, 0x24, 0x35, 0x46, 0x57, 0x68, 0x79, 0x8A, 0x9B, 0xAC, 0xBD] =
      some ([0xBFD0E1F2031425364758697A8B9CADBECFE0F102132435465768798A9BACBD], 32) := by decide

/-- R138, its example. -/
theorem test_push32 :
    pushed
      [0x7F, 0xC0, 0xD1, 0xE2, 0xF3, 0x04, 0x15, 0x26, 0x37, 0x48, 0x59, 0x6A, 0x7B, 0x8C, 0x9D, 0xAE,
      0xBF, 0xD0, 0xE1, 0xF2, 0x03, 0x14, 0x25, 0x36, 0x47, 0x58, 0x69, 0x7A, 0x8B, 0x9C, 0xAD, 0xBE,
      0xCF] =
      some ([0xC0D1E2F30415263748596A7B8C9DAEBFD0E1F2031425364758697A8B9CADBECF], 33) := by decide

/-! ### Parameters, faults and phases -/

/-- Vector V1, FLAG `PUSH_PAST_END`: `FAULT`. -/
theorem test_truncated_push3 : blockAfter (running [0x62, 0xFF, 0xFE] []) = some (.truncatedCode, 0, 0x00, 1, []) := by decide

/-- Vector V1, FLAG `PUSH_PAST_END`: `ZERO_PAD`. -/
theorem test_zero_padded_push3 :
    blockAfter (under zeroPad (running [0x62, 0xFF, 0xFE] [])) = some (.noFault, 0, 0x00, 4, [0xFFFE00]) := by decide

/-- Vector V6: `TruncatedCode` wins over `StackOverflow`. -/
theorem test_truncated_before_overflow :
    blockAfter (under stackCap2 { running [0x60, 0x01, 0x60, 0x02, 0x61] [0x2, 0x1] with pc := 4 }) =
      some (.truncatedCode, 4, 0x00, 5, [0x2, 0x1]) := by decide

/-- Vector V6: `STACK_CAP = 2`, the third push. -/
theorem test_push_full_stack :
    blockAfter (under stackCap2 { running [0x60, 0x01, 0x60, 0x02, 0x60, 0x03] [0x2, 0x1] with pc := 4 }) =
      some (.stackOverflow, 4, 0x00, 5, [0x2, 0x1]) := by decide

/-- Vector V6: `MEM_CAP = 64`, a store at 33 needs 65 bytes. -/
theorem test_memory_limit :
    blockAfter (under memCap64 { running [0x60, 0x01, 0x60, 0x21, 0x52] [0x21, 0x1] with pc := 4 }) =
      some (.memoryLimit, 4, 0x00, 5, [0x21, 0x1]) := by decide

/-- Vector V6: `MEM_CAP = 64`, a store at 32 needs exactly 64. -/
theorem test_memory_limit_edge : memoryAfter .mstore (under memCap64 (at1 [0x20, 0x01])) = some (64, [(0x3F, 0x01)]) := by decide

/-- Vector V6: one word with a huge offset: `StackUnderflow` wins over `MemoryLimit`. -/
theorem test_underflow_before_limit :
    blockAfter (under memCap64 (running [0x52] [wMax])) = some (.stackUnderflow, 0, 0x00, 1, [wMax]) := by decide

/-- Vector S2: `ADDMOD` with two words; both stay. -/
theorem test_underflow_keeps_stack :
    blockAfter { running [0x60, 0x01, 0x60, 0x02, 0x08] [0x2, 0x1] with pc := 4 } =
      some (.stackUnderflow, 4, 0x00, 5, [0x2, 0x1]) := by decide

/-- Vector S3: `60 01 FF` after its push. -/
theorem test_invalid_opcode :
    blockAfter { running [0x60, 0x01, 0xFF] [0x1] with pc := 2 } = some (.invalidOpcode, 2, 0xFF, 3, [0x1]) := by decide

/-- Vector V1: the run of an empty code ends at once. -/
theorem test_empty_code_is_done : (nextState (step (running [] []))).map (·.status) = some .done := by decide

/-- R232: load a code, start, and the first step runs its first instruction. -/
theorem test_load_and_start :
    blockAfter (hostOp .start (hostOp (.loadCode [0x60, 0x02]) State.reset).1).1 = some (.noFault, 0, 0x00, 2, [0x2]) := by
  decide

/-- R231 and U12: `START` before a load, and a load while running, are refused. -/
theorem test_host_refusals :
    hostOp .start State.reset = (State.reset, .refused) ∧
    hostOp (.loadCode [0x01]) (at1 []) = (at1 [], .refused) ∧
    (hostOp (.readStack 0) (at1 [7])).2 = .refused := by decide

/-- The codes of R26 and R201 as `READ_STATUS` hands them over, on the fault of vector S2: `STATUS` 3, `FAULT_KIND` 1. -/
theorem test_read_status_codes :
    (statusView (faulted .stackUnderflow 0 (at1 []))).status = 3 ∧
    (statusView (faulted .stackUnderflow 0 (at1 []))).faultKind = 1 ∧
    (statusView (faulted .truncatedCode 0 (at1 []))).faultKind = 5 ∧ (statusView (at1 [])).status = 1 ∧
    (statusView { at1 [] with status := .done }).status = 2 := by decide

/-- R6 and D16: an instance with other fault codes hands over its own. -/
theorem test_read_status_other_codes :
    (statusView (under { defaultConfig with faultCodes := { defaultFaultCodes with stackUnderflow := 2, invalidOpcode := 1 } }
      (faulted .stackUnderflow 0 (at1 [])))).faultKind = 2 ∧
    faultCodesValid { defaultFaultCodes with stackUnderflow := 2 } = false := by decide

/-- R31: index 0 of `READ_STACK` is the bottom. -/
theorem test_read_stack_bottom_first :
    (hostOp (.readStack 0) { at1 [0x2, 0x1] with status := .done }).2 = .word 0x1 := by decide

/-- R234: the final Memory is the bytes below `MEM_LEN`, offset 0 first. -/
theorem test_final_memory : finalMemory { at1 [] with memLen := 3, mem := [(1, 0xAD)] } = [0x00, 0xAD, 0x00] := by decide

/-- The first instruction after reset, stored where the step fetches. -/
theorem test_fetch_push1 : blockAfter (State.reset.withFetchWord 16 0x0560) = some (.noFault, 0, 0x00, 2, [0x5]) := by
  decide

/-- The immediate bytes above the table's bits are zero. -/
theorem test_fetch_push32 : blockAfter (State.reset.withFetchWord 8 0x7F) = some (.noFault, 0, 0x00, 33, [0x0]) := by
  decide

/-- An instruction that needs more words than an empty stack holds. -/
theorem test_fetch_add : blockAfter (State.reset.withFetchWord 8 0x01) = some (.stackUnderflow, 0, 0x00, 1, []) := by
  decide

/-- The reset Memory has the canonical form, and the state after reset is sound. -/
theorem test_reset_memory_wf : State.reset.mem.wf = true ∧ State.reset.sound = true := by decide

/-! ### Witnesses: a concrete state that meets the hypotheses of each statement -/

theorem hasRoom_iff (s : State) : HasRoom s ↔ s.hasRoom = true := by
  rw [HasRoom, State.hasRoom, State.sp]
  cases s.cfg.stackCap <;> simp [within]

theorem lengthFits_iff (s : State) (len : Nat) : LengthFits s len ↔ within len s.cfg.memCap = true := by
  rw [LengthFits]
  cases s.cfg.memCap <;> simp [within]

theorem witness_DecodeOfEncode :
    (defaultOpcodeMap.map (·.1)).Nodup ∧ Instr.wellFormed (.push2 0xFFFF) = true ∧
    encode defaultOpcodeMap (.push2 0xFFFF) = some [0x61, 0xFF, 0xFF] := by decide

theorem witness_EncodeOfDecode :
    mapValid defaultOpcodeMap = true ∧ decode defaultOpcodeMap [0x61, 0xA2, 0xB3] = .instr (.push2 0xA2B3) ∧
    1 + immBytes (.push2 0xA2B3) ≤ [(0x61 : Byte), 0xA2, 0xB3].length := by decide

theorem witness_StepRunsDecoded :
    (running [0x60, 0x02] []).status = .running ∧
    decode (running [0x60, 0x02] []).cfg.opcodeMap ((running [0x60, 0x02] []).code.drop 0) = .instr (.push1 2) := by decide

/-- At the end, one byte before it with an instruction, and one byte before it with an invalid byte. -/
theorem witness_RunEndsAtCodeEnd :
    ({ running [0x01] [] with pc := 1 }).status = .running ∧
    ({ running [0x01] [] with pc := 1 }).code.length ≤ ({ running [0x01] [] with pc := 1 }).pc ∧
    (running [0x01] []).pc < (running [0x01] []).code.length ∧
    (running [0xFF] []).pc < (running [0xFF] []).code.length ∧
    opOfByte 0xFF (running [0xFF] []).cfg.opcodeMap = none ∧
    opOfByte 0x01 (running [0x01] []).cfg.opcodeMap = some .add ∧
    (nextState (step (running [0x01] [2, 1]))).map (·.status) = some .running ∧
    (nextState (step (running [0x01] []))).map (·.status) = some .fault := by decide

theorem witness_InstructionCycle :
    (running [0xFF] []).status = .running ∧ (running [0xFF] []).code[0]? = some 0xFF ∧
    opOfByte 0xFF (running [0xFF] []).cfg.opcodeMap = none ∧
    (running [0x5F] []).code[0]? = some 0x5F ∧ opOfByte 0x5F (running [0x5F] []).cfg.opcodeMap = some .push0 ∧
    (∃ t, step (running [0x5F] []) = .next t ∧ t.status = .running) ∧
    (∃ t, step (running [0x01] []) = .next t ∧ t.status = .fault) :=
  ⟨by decide, by decide, by decide, by decide, by decide, ⟨_, rfl, rfl⟩, ⟨_, rfl, rfl⟩⟩

theorem witness_PhaseMoves :
    State.reset.status ≠ .running ∧
    (∃ t, step (running [] []) = .next t ∧ t.status = .done) ∧ (∃ t, step (running [0x01] []) = .next t ∧ t.status = .fault) ∧
    ({ State.reset with codeLoaded := true }).status = .idle ∧
    HostOp.readStatus ≠ .reset ∧ ¬(HostOp.start = .start ∧ State.reset.status = .idle ∧ State.reset.codeLoaded = true) :=
  ⟨by decide, ⟨_, rfl, rfl⟩, ⟨_, rfl, rfl⟩, rfl, by decide, by decide⟩

/-- A run that ended normally and one that ended by a fault, each with a word on the stack and a byte of Memory. -/
theorem witness_HaltedStateStays :
    ({ running [0x01] [7] with status := .done, memLen := 1, pc := 1 }).halted = true ∧
    ({ running [0x01] [7] with status := .fault, memLen := 1, pc := 1 }).halted = true ∧
    0 < (running [0x01] [7]).stack.length ∧ 0 < ({ running [0x01] [7] with memLen := 1 }).memLen ∧
    HostOp.start ≠ .reset := by decide

/-- The hypotheses of a statement about an opcode that pops k words, at their boundaries: the instruction has an
encoding, a stack of exactly k words, and a stack of k - 1 words. -/
def PopHyps (i : Instr) (byte : Byte) (k : Nat) : Prop :=
  encode defaultOpcodeMap i = some [byte] ∧ (at1 (List.replicate k wMax)).stack.length = k ∧
  (at1 (List.replicate (k - 1) wMax)).stack.length < k

theorem witness_stack_shapes :
    (at1 [1]).stack = 1 :: [] ∧ (at1 [2, 1]).stack = 2 :: 1 :: [] ∧ (at1 [3, 2, 1]).stack = 3 :: 2 :: 1 :: [] ∧
    (at1 []).stack.length < 1 ∧ (at1 [1]).stack.length < 2 ∧ (at1 [2, 1]).stack.length < 3 := by decide

theorem witness_AddPushesSum : PopHyps .add 0x01 2 := by unfold PopHyps; decide

theorem witness_MulPushesProduct : PopHyps .mul 0x02 2 := by unfold PopHyps; decide

theorem witness_SubPushesDifference : PopHyps .sub 0x03 2 := by unfold PopHyps; decide

theorem witness_DivPushesFloorQuotient : PopHyps .div 0x04 2 := by unfold PopHyps; decide

theorem witness_SdivPushesSignedQuotient : PopHyps .sdiv 0x05 2 := by unfold PopHyps; decide

theorem witness_ModPushesRemainder : PopHyps .mod 0x06 2 := by unfold PopHyps; decide

theorem witness_SmodPushesSignedRemainder : PopHyps .smod 0x07 2 := by unfold PopHyps; decide

theorem witness_ExpPushesPower : PopHyps .exp 0x0A 2 := by unfold PopHyps; decide

theorem witness_SignextendExtendsLowBytes : PopHyps .signextend 0x0B 2 := by unfold PopHyps; decide

theorem witness_LtComparesSecondWithFirst : PopHyps .lt 0x10 2 := by unfold PopHyps; decide

theorem witness_GtComparesSecondWithFirst : PopHyps .gt 0x11 2 := by unfold PopHyps; decide

theorem witness_SltComparesSignedReadings : PopHyps .slt 0x12 2 := by unfold PopHyps; decide

theorem witness_SgtComparesSignedReadings : PopHyps .sgt 0x13 2 := by unfold PopHyps; decide

theorem witness_EqComparesAllBits : PopHyps .eq 0x14 2 := by unfold PopHyps; decide

theorem witness_AndCombinesBits : PopHyps .and 0x16 2 := by unfold PopHyps; decide

theorem witness_OrCombinesBits : PopHyps .or 0x17 2 := by unfold PopHyps; decide

theorem witness_XorCombinesBits : PopHyps .xor 0x18 2 := by unfold PopHyps; decide

theorem witness_ByteExtractsIndexedByte : PopHyps .byte 0x1A 2 := by unfold PopHyps; decide

theorem witness_ShlShiftsByFullAmount : PopHyps .shl 0x1B 2 := by unfold PopHyps; decide

theorem witness_ShrShiftsByFullAmount : PopHyps .shr 0x1C 2 := by unfold PopHyps; decide

theorem witness_SarShiftsInTheSign : PopHyps .sar 0x1D 2 := by unfold PopHyps; decide

theorem witness_AddmodUsesExactSum : PopHyps .addmod 0x08 3 := by unfold PopHyps; decide

theorem witness_MulmodUsesExactProduct : PopHyps .mulmod 0x09 3 := by unfold PopHyps; decide

theorem witness_IszeroTestsTheWord : PopHyps .iszero 0x15 1 := by unfold PopHyps; decide

theorem witness_NotComplementsAllBits : PopHyps .not 0x19 1 := by unfold PopHyps; decide

/-- A sound state with two words whose store fits exactly, one whose store does not fit by one byte, and one word. -/
theorem witness_MstoreWritesBigEndianWord :
    (under memCap64 (at1 [0x20, 0x01])).stack = 0x20 :: 0x01 :: [] ∧ memorySound (under memCap64 (at1 [0x20, 0x01])) = true ∧
    0 < (under memCap64 (at1 [0x20, 0x01])).cfg.growthUnit ∧
    LengthFits (under memCap64 (at1 [0x20, 0x01])) (lengthAfter (under memCap64 (at1 [0x20, 0x01])) 0x20 32) ∧
    ¬LengthFits (under memCap64 (at1 [0x21, 0x01])) (lengthAfter (under memCap64 (at1 [0x21, 0x01])) 0x21 32) ∧
    (at1 [0x20]).stack.length < 2 := by
  simp only [lengthFits_iff]; decide

theorem witness_Mstore8WritesLowByte :
    (under memCap64 (at1 [0x3F, 0x01])).stack = 0x3F :: 0x01 :: [] ∧ memorySound (under memCap64 (at1 [0x3F, 0x01])) = true ∧
    0 < (under memCap64 (at1 [0x3F, 0x01])).cfg.growthUnit ∧
    LengthFits (under memCap64 (at1 [0x3F, 0x01])) (lengthAfter (under memCap64 (at1 [0x3F, 0x01])) 0x3F 1) ∧
    ¬LengthFits (under memCap64 (at1 [0x40, 0x01])) (lengthAfter (under memCap64 (at1 [0x40, 0x01])) 0x40 1) ∧
    (at1 [0x20]).stack.length < 2 ∧ encode defaultOpcodeMap .mstore8 = some [0x53] := by
  simp only [lengthFits_iff]; decide

theorem witness_MloadReadsBigEndianWord :
    (under memCap64 (at1 [0x20])).stack = 0x20 :: [] ∧ memorySound (under memCap64 (at1 [0x20])) = true ∧
    0 < (under memCap64 (at1 [0x20])).cfg.growthUnit ∧
    LengthFits (under memCap64 (at1 [0x20])) (lengthAfter (under memCap64 (at1 [0x20])) 0x20 32) ∧
    ¬LengthFits (under memCap64 (at1 [0x21])) (lengthAfter (under memCap64 (at1 [0x21])) 0x21 32) ∧
    (at1 []).stack.length < 1 ∧ encode defaultOpcodeMap .mload = some [0x51] := by
  simp only [lengthFits_iff]; decide

/-- Room for exactly one more word, and none. -/
theorem witness_MsizePushesLength :
    HasRoom (under stackCap2 (at1 [1])) ∧ ¬HasRoom (under stackCap2 (at1 [2, 1])) ∧
    encode defaultOpcodeMap .msize = some [0x59] := by
  simp only [hasRoom_iff]; decide

/-- The hypotheses of every clause about the push of size n, at their boundaries: the largest immediate; a code that
ends exactly behind it, and one a byte shorter under either value of `PUSH_PAST_END`; room for one word, and none. -/
def PushHyps (n : Nat) : Prop :=
  let full : List Byte := BitVec.ofNat 8 (0x5F + n) :: List.replicate n 0xFF
  let v : Word := BitVec.ofNat 256 (256 ^ n - 1)
  encode defaultOpcodeMap ((pushOp n).instr v) = some full ∧ v.toNat < 256 ^ n ∧
  (running full []).pc + 1 + n ≤ (running full []).code.length ∧
  (running (full.take n) []).code.length < (running (full.take n) []).pc + 1 + n ∧
  (running (full.take n) []).cfg.pushPastEnd = .fault ∧
  (under zeroPad (running (full.take n) [])).cfg.pushPastEnd = .zeroPad ∧
  (under stackCap2 (running full [1])).hasRoom = true ∧ (under stackCap2 (running full [2, 1])).hasRoom = false ∧
  (running full []).status = .running ∧
  (running full []).code.drop (running full []).pc = BitVec.ofNat 8 (0x5F + n) :: List.replicate n 0xFF ++ [] ∧
  opOfByte (BitVec.ofNat 8 (0x5F + n)) (running full []).cfg.opcodeMap = some (pushOp n)

theorem witness_push_room :
    HasRoom (under stackCap2 (running [0x5F] [1])) ∧ ¬HasRoom (under stackCap2 (running [0x5F] [2, 1])) := by
  simp only [hasRoom_iff]; decide

theorem witness_PushZeroToTen :
    encode defaultOpcodeMap .push0 = some [0x5F] ∧ ∀ n, n < 11 → 0 < n → PushHyps n := by
  unfold PushHyps; decide

theorem witness_PushElevenToTwentyone : ∀ n, n < 22 → 10 < n → PushHyps n := by
  unfold PushHyps; decide

theorem witness_PushTwentytwoToThirtytwo : ∀ n, n < 33 → 21 < n → PushHyps n := by
  unfold PushHyps; decide

/-- One immediate byte missing under each value of `PUSH_PAST_END`, and none missing; room and no room. -/
theorem witness_PushReadsCodeBytes :
    (running [0x61, 0xA2] []).status = .running ∧ (running [0x61, 0xA2] []).code[0]? = some 0x61 ∧
    opOfByte 0x61 (running [0x61, 0xA2] []).cfg.opcodeMap = some (pushOp 2) ∧ [(0xA2 : Byte), 0x00].length = 2 ∧
    (∀ j, j < 2 → [(0xA2 : Byte), 0x00][j]? = some ((running [0x61, 0xA2] []).code[0 + 1 + j]?.getD 0)) ∧
    (running [0x61, 0xA2] []).code.length < (running [0x61, 0xA2] []).pc + 1 + 2 ∧
    (running [0x61, 0xA2] []).cfg.pushPastEnd = .fault ∧ (under zeroPad (running [0x61, 0xA2] [])).cfg.pushPastEnd ≠ .fault ∧
    (∀ j, j < 2 → [(0xA2 : Byte), 0xB3][j]? = some ((running [0x61, 0xA2, 0xB3] []).code[0 + 1 + j]?.getD 0)) ∧
    ¬((running [0x61, 0xA2, 0xB3] []).code.length < (running [0x61, 0xA2, 0xB3] []).pc + 1 + 2) := by decide

theorem witness_UnderflowExactly :
    (at1 [1]).faultKind = .noFault ∧ (at1 [1]).stack.length < minDepth .add ∧
    ∃ t, exec .add (at1 [1]) = .next t ∧ t.faultKind = .stackUnderflow := ⟨by decide, by decide, _, rfl, rfl⟩

/-- A push onto a full stack, and one that still has room. -/
theorem witness_OverflowExactly :
    (under stackCap2 (running [0x5F] [2, 1])).sound = true ∧ (under stackCap2 (running [0x5F] [2, 1])).status = .running ∧
    (under stackCap2 (running [0x5F] [2, 1])).pc + 1 + immBytes .push0 ≤ (under stackCap2 (running [0x5F] [2, 1])).code.length ∧
    (∃ t, exec .push0 (under stackCap2 (running [0x5F] [2, 1])) = .next t ∧ t.faultKind = .stackOverflow) ∧
    (∃ t, exec .push0 (under stackCap2 (running [0x5F] [1])) = .next t ∧ t.faultKind = .noFault) :=
  ⟨by decide, by decide, by decide, ⟨_, rfl, rfl⟩, ⟨_, rfl, rfl⟩⟩

/-- A store one byte too far, one that ends exactly at the capacity, and one inside the Memory. -/
theorem witness_InsideAccessNeverLimited :
    (under memCap64 (at1 [0x21, 1])).sound = true ∧ (under memCap64 (at1 [0x21, 1])).status = .running ∧
    minDepth .mstore ≤ (under memCap64 (at1 [0x21, 1])).stack.length ∧
    (nextState (exec .mstore (under memCap64 (at1 [0x21, 1])))).map (·.faultKind) = some .memoryLimit ∧
    (nextState (exec .mstore (under memCap64 (at1 [0x20, 1])))).map (·.faultKind) = some .noFault ∧
    ({ under memCap64 (at1 [0x20, 1]) with memLen := 64 }).sound = true ∧
    (0x20 : Word).toNat + 32 ≤ ({ under memCap64 (at1 [0x20, 1]) with memLen := 64 }).memLen ∧
    Instr.add ≠ .mstore ∧ Instr.add ≠ .mstore8 ∧ Instr.add ≠ .mload ∧ (at1 [2, 1]).faultKind = .noFault ∧
    (nextState (exec .add (at1 [2, 1]))).isSome = true := by decide

theorem witness_FaultIsPrecise :
    (∃ t, step (running [0xFF] [7]) = .next t ∧ t.status = .fault ∧ t.faultKind = .invalidOpcode) ∧
    (∃ t, step (running [0x01] [7]) = .next t ∧ t.status = .fault ∧ t.faultKind = .stackUnderflow) ∧
    (running [0x01] [7]).status = .running := ⟨⟨_, rfl, rfl, rfl⟩, ⟨_, rfl, rfl, rfl⟩, rfl⟩

/-- Each of the five clauses, where the fault of the next one applies too. -/
theorem witness_FaultPriority :
    (running [0xFF] []).code[0]? = some 0xFF ∧ opOfByte 0xFF (running [0xFF] []).cfg.opcodeMap = none ∧
    0 < immBytes (.push2 0) ∧ (running [0x61, 0xA2] []).code.length < (running [0x61, 0xA2] []).pc + 1 + immBytes (.push2 0) ∧
    (running [0x61, 0xA2] []).cfg.pushPastEnd = .fault ∧
    (under memCap64 (at1 [wMax])).stack.length < minDepth .mstore ∧
    minDepth .msize = 0 ∧ (under stackCap2 (at1 [2, 1])).hasRoom = false ∧ immBytes .msize = 0 ∧
    minDepth (.push1 5) = 0 ∧ (under stackCap2 (running [0x60, 0x05] [2, 1])).hasRoom = false ∧
    (running [0x60, 0x05] []).pc + 1 + immBytes (.push1 5) ≤ (running [0x60, 0x05] []).code.length ∧
    (under memCap64 (at1 [0x40, 1])).stack = 0x40 :: 1 :: [] ∧
    within (lengthAfter (under memCap64 (at1 [0x40, 1])) 0x40 1) (some 64) = false := by decide

/-- A sound state in every phase. -/
theorem witness_SoundStepAnswersSound :
    State.reset.sound = true ∧ (running [0x01] [2, 1]).sound = true ∧
    ({ running [0x01] [2, 1] with pc := 1, status := .done }).sound = true ∧ (faulted .invalidOpcode 0xFF (running [0xFF] [])).sound = true ∧
    ({ running [0x5F] [] with memLen := 64, mem := [(63, 2)] }).sound = true := by decide

theorem witness_HostOpsKeepSound : State.reset.sound = true ∧ (running [0x01] [1]).sound = true := by decide

theorem witness_RunAlwaysHalts : (running [0x60, 0x01] []).sound = true ∧ (running [0x60, 0x01] []).status = .running := by decide

theorem witness_StepKeepsCodeAndLength :
    (∃ t, step State.reset = .next t) ∧ (∃ t, step (running [0x60, 0x02] []) = .next t) := ⟨⟨_, rfl⟩, ⟨_, rfl⟩⟩

theorem witness_NonMemoryFrame :
    Instr.add ≠ .mstore ∧ Instr.add ≠ .mstore8 ∧ Instr.add ≠ .mload ∧
    (∃ t, exec .add (at1 [2, 1]) = .next t ∧ t.status = .running) ∧ (∃ t, exec .add (at1 [1]) = .next t ∧ t.status = .fault) :=
  ⟨by decide, by decide, by decide, ⟨_, rfl, rfl⟩, ⟨_, rfl, rfl⟩⟩

/-- A growth one byte beyond the capacity, one that ends exactly at it, and one that changes no length. -/
theorem witness_GrowthRule :
    ¬LengthFits (under memCap64 (at1 [])) (lengthAfter (under memCap64 (at1 [])) 33 32) ∧
    LengthFits (under memCap64 (at1 [])) (lengthAfter (under memCap64 (at1 [])) 32 32) ∧
    lengthAfter { under memCap64 (at1 []) with memLen := 64 } 32 32 = 64 := by
  simp only [lengthFits_iff]; decide

theorem witness_StoreThenLoadReturnsValue :
    memorySound (at1 [7, 0xBEEF]) = true ∧ 0 < (at1 [7, 0xBEEF]).cfg.growthUnit ∧
    (at1 [7, 0xBEEF]).stack = 7 :: 0xBEEF :: [] ∧ (at1 [7, 0xBEEF]).status ≠ .fault ∧
    ∃ t, exec .mstore (at1 [7, 0xBEEF]) = .next t ∧ t.status = (at1 [7, 0xBEEF]).status :=
  ⟨by decide, by decide, rfl, by decide, _, rfl, rfl⟩

/-- The store-byte at the first and at the last byte of the loaded word. -/
theorem witness_MixedWidthAccess :
    memorySound (at1 [31, 0xAA]) = true ∧ 0 < (at1 [31, 0xAA]).cfg.growthUnit ∧ (at1 [31, 0xAA]).cfg.memCap = none ∧
    (at1 [31, 0xAA]).stack = 31 :: 0xAA :: [] ∧ (0 : Word).toNat ≤ (31 : Word).toNat ∧ (31 : Word).toNat < (0 : Word).toNat + 32 ∧
    (31 : Word).toNat ≤ (31 : Word).toNat := by decide

theorem witness_OffsetsDoNotWrap :
    (under memCap64 (at1 [wMax, 1])).stack = BitVec.ofNat 256 (2 ^ 256 - 1) :: 1 :: [] ∧
    (under memCap64 (at1 [wMax, 1])).cfg.memCap = some 64 ∧ 64 < 2 ^ 256 ∧ 0 < (under memCap64 (at1 [wMax, 1])).cfg.growthUnit ∧
    (at1 [wMax, 1]).stack = BitVec.ofNat 256 (2 ^ 256 - 1) :: 1 :: [] ∧ (at1 [wMax, 1]).cfg.memCap = none ∧
    (at1 [wMax, 1]).cfg.growthUnit = 1 ∧ memorySound (at1 [wMax, 1]) = true ∧ (at1 [wMax, 1]).memLen ≤ 2 ^ 256 + 31 := by decide

/-- A Memory that held bytes before the reset grows after it. -/
theorem witness_ResetClearsTheRun :
    (memGrow 0 32 (hostOp .reset { at1 [7] with memLen := 64, mem := [(3, 0xAA)] }).1).isSome = true := by decide

/-- A load that fits `CODE_CAP` exactly, one that does not by one byte, and a start where each is allowed and not. -/
theorem witness_HostProtocol :
    State.reset.status = .idle ∧
    (hostOp (.loadCode [0x01, 0x02]) (under { defaultConfig with codeCap := some 2 } State.reset)).2 = .accepted ∧
    (hostOp (.loadCode [0x01, 0x02, 0x03]) (under { defaultConfig with codeCap := some 2 } State.reset)).2 = .refused ∧
    (at1 []).status ≠ .idle ∧
    ({ State.reset with codeLoaded := true }).status = .idle ∧ ¬(State.reset.status = .idle ∧ State.reset.codeLoaded = true) ∧
    [(0x01 : Byte), 0x02].length ≤ 2 ∧ ¬[(0x01 : Byte), 0x02, 0x03].length ≤ 2 ∧
    ({ at1 [7] with status := .done }).status = .done ∧ 0 < (at1 [7]).stack.length ∧ (at1 [7]).stack.length ≤ 1 ∧
    (hostOp (.readStack 0) { at1 [7] with status := .done }).2 = .word 7 ∧
    (hostOp (.readStack 1) { at1 [7] with status := .done }).2 = .refused ∧
    (hostOp (.readMem 0) { at1 [7] with status := .fault, memLen := 1, mem := [(0, 9)] }).2 = .byte 9 ∧
    (hostOp (.readMem 1) { at1 [7] with status := .fault, memLen := 1, mem := [(0, 9)] }).2 = .refused := by decide

/-- The two cases of the value. -/
theorem witness_AssemblePushIsShortest : (0 : Word) = 0 ∧ wMax ≠ 0 := by decide

end Sys2Proof.Tests
end

section
/-! The phases in which the engine takes no step, what the host may do in them, and the run that has ended
(10_state.md R36, 70_reset_and_hazards.md R230, R231, R233). -/

namespace Sys2Proof.Machine

open Sys2Proof.Claims

theorem halted_iff (s : State) : s.halted = true ↔ s.status = .done ∨ s.status = .fault := by
  simp [State.halted]

theorem status_ne_running_of_halted {s : State} (h : s.halted = true) : s.status ≠ .running := by
  rcases (halted_iff s).mp h with hs | hs <;> simp [hs]

theorem status_ne_idle_of_halted {s : State} (h : s.halted = true) : s.status ≠ .idle := by
  rcases (halted_iff s).mp h with hs | hs <;> simp [hs]

/-- R233: the engine takes steps in `RUNNING` only. -/
theorem step_eq_self_of_ne_running {s : State} (h : s.status ≠ .running) : step s = .next s := by
  rcases step_cases s with ⟨-, hstay⟩ | ⟨hrun, -⟩ | ⟨hrun, -⟩ | ⟨hrun, -⟩
  · exact hstay
  all_goals exact absurd hrun h

/-- A state that a step leaves as it is stays through any number of steps. -/
theorem run_eq_self_of_step_eq_self {M : Host.Core} {s : M.State} (h : M.step s = .next s) (n : Nat) :
    M.run n s = .next s := by
  induction n with
  | zero => rfl
  | succ n ih => rw [Host.Core.run, h]; exact ih

theorem hostLoadCode_of_ne_idle {s : State} (h : s.status ≠ .idle) (bytes : List Byte) :
    hostLoadCode bytes s = (s, .refused) := if_neg h

theorem hostStart_of_ne_idle {s : State} (h : s.status ≠ .idle) : hostStart s = (s, .refused) :=
  if_neg fun hc => h hc.1

/-- Outside `IDLE` only `RESET` changes the state: `LOAD_CODE` and `START` are refused, and a read leaves the state as
it is. -/
theorem hostOp_state_of_ne_idle {s : State} (h : s.status ≠ .idle) {o : HostOp} (ho : o ≠ .reset) :
    (hostOp o s).1 = s := by
  cases o with
  | reset => exact absurd rfl ho
  | loadCode bytes => rw [hostOp, hostLoadCode_of_ne_idle h]
  | start => rw [hostOp, hostStart_of_ne_idle h]
  | readStatus => rfl
  | readStack i => rfl
  | readMem i => rfl

/-- R31: `READ_STACK` counts from the bottom, and the model's stack is held top first. -/
theorem readStack_of_halted {s : State} (h : s.halted = true) {i : Nat} (hi : i < s.stack.length) :
    readStack i s = .word s.stack[s.stack.length - 1 - i] := by
  have hget : (finalStack s)[i]? = some s.stack[s.stack.length - 1 - i] := by
    rw [finalStack, List.getElem?_reverse hi, List.getElem?_eq_getElem]
  rw [readStack, if_pos h, hget]

theorem readMem_of_halted {s : State} (h : s.halted = true) {i : Nat} (hi : i < s.memLen) :
    readMem i s = .byte (s.mem.get i) := if_pos ⟨h, hi⟩

/-- R35, R230: `RESET` gives every field of the reset table its value, in any phase. -/
theorem atReset_hostReset (s : State) : AtReset (hostReset s) := ⟨rfl, rfl, rfl, rfl, rfl, rfl, rfl, rfl⟩

/-- Settles O9: a halted state is in neither of the phases in which a step or `LOAD_CODE` or `START` has an effect. -/
theorem haltedStateStays : Obligations.HaltedStateStays := by
  intro s h
  refine ⟨run_eq_self_of_step_eq_self (M := core) (step_eq_self_of_ne_running (status_ne_running_of_halted h)),
    fun o ho => hostOp_state_of_ne_idle (status_ne_idle_of_halted h) ho, fun i hi => ?_, fun i hi => ?_,
    atReset_hostReset s⟩
  · exact ⟨_, List.getElem?_eq_getElem (by omega), by rw [hostOp, readStack_of_halted h hi]⟩
  · rw [hostOp, readMem_of_halted h hi]

end Sys2Proof.Machine
end

section
/-! What a growth decides and leaves, read through `LengthFits` and `lengthAfter` of the statements, and from it the
equations of a store and a load: `MemoryLimit`, or completion (20_memory.md R56, R60; 44_memory_ops.md R191 to R193). -/

namespace Sys2Proof.Machine

open Sys2Proof.Claims

/-! ### The length an access asks for -/

/-- What `within` decides; `LengthFits` is this condition for `MEM_CAP`. -/
theorem within_iff (n : Nat) (cap : Option Nat) : within n cap = true ↔ ∀ c, cap = some c → n ≤ c := by
  cases cap <;> simp [within]

theorem lengthAfter_eq_grownLen (s : State) (a n : Nat) : lengthAfter s a n = grownLen s a n := rfl

theorem add_le_lengthAfter {s : State} (hu : 0 < s.cfg.growthUnit) (a n : Nat) : a + n ≤ lengthAfter s a n :=
  le_trans (le_growTarget hu a n) (Nat.le_max_right _ _)

/-- R57: with the unit 1 the length is exact to the byte. -/
theorem lengthAfter_of_unit_one {s : State} (hu : s.cfg.growthUnit = 1) (a n : Nat) :
    lengthAfter s a n = max s.memLen (a + n) := by
  rw [lengthAfter_eq_grownLen, grownLen, hu, growTarget_one]

theorem lengthFits_of_unbounded {s : State} (h : s.cfg.memCap = none) (len : Nat) : LengthFits s len := by
  intro c hc
  simp [h] at hc

/-- R60: the end of the access is not reduced, so it is the end itself that has to fit. -/
theorem not_lengthFits_of_memCap_lt {s : State} {c a n : Nat} (hcap : s.cfg.memCap = some c)
    (hu : 0 < s.cfg.growthUnit) (h : c < a + n) : ¬LengthFits s (lengthAfter s a n) := fun hf =>
  absurd (hf c hcap) (Nat.not_le.mpr (lt_of_lt_of_le h (add_le_lengthAfter hu a n)))

/-! ### What a growth answers -/

theorem memGrow_eq_none {s : State} {a n : Nat} (h : ¬LengthFits s (lengthAfter s a n)) : memGrow a n s = none := by
  rcases memGrow_cases a n s with ⟨-, hnone⟩ | ⟨hw, -⟩
  · exact hnone
  · exact absurd ((within_iff _ _).mp hw) h

theorem memGrow_eq_some {s : State} {a n : Nat} (h : LengthFits s (lengthAfter s a n)) :
    ∃ m, memGrow a n s = some (s.withMemory m (lengthAfter s a n)) ∧ (s.mem.wf = true → m.wf = true) ∧
      (lengthAfter s a n = s.memLen → m = s.mem) := by
  rcases memGrow_cases a n s with ⟨hw, -⟩ | ⟨-, m, hg, hwf, ⟨hm, -⟩ | ⟨-, hlt⟩⟩
  · exact absurd ((within_iff _ _).mpr h) (Bool.eq_false_iff.mp hw)
  · exact ⟨m, hg, hwf, fun _ => hm⟩
  · exact ⟨m, hg, hwf, fun he => absurd he (Nat.ne_of_gt hlt)⟩

theorem memGrow_get_of_lt {s t : State} {a n x : Nat} (h : memGrow a n s = some t) (hx : x < s.memLen) :
    t.mem.get x = s.mem.get x := by
  rw [memGrow_get h, if_neg (by omega)]

theorem memGrow_get_appended {s t : State} {a n x : Nat} (h : memGrow a n s = some t) (hlo : s.memLen ≤ x)
    (hhi : x < t.memLen) : t.mem.get x = 0 := by
  rw [memGrow_get h, if_pos ⟨lt_of_le_of_lt hlo hhi, hlo⟩]

theorem get_of_allBelow {m : Memory} {n x : Nat} (hm : m.allBelow n = true) (h : n ≤ x) : m.get x = 0 := by
  rw [← below_eq_self hm, get_below, if_neg (Nat.not_lt.mpr h)]

/-- A growth of a sound Memory changes the length only: what it appends read as zero before. -/
theorem memGrow_get_of_sound {s t : State} {a n : Nat} (hs : memorySound s = true) (h : memGrow a n s = some t)
    (x : Nat) : t.mem.get x = s.mem.get x := by
  obtain ⟨-, hbelow, -⟩ := (memorySound_iff s).mp hs
  rw [memGrow_get h]
  split_ifs with hx
  · exact (get_of_allBelow hbelow hx.2).symm
  · rfl

/-- Settles O54: the growth answers by whether the new length fits, and its bytes are the old ones, then the appended
zeros. -/
theorem growthRule : Obligations.GrowthRule := by
  intro a n s
  refine ⟨memGrow_eq_none, fun hf => ?_⟩
  obtain ⟨m, hg, -, hsame⟩ := memGrow_eq_some hf
  exact ⟨m, hg, fun x => memGrow_get_of_lt hg, fun x => memGrow_get_appended hg, hsame⟩

/-! ### Stores and loads -/

theorem storeBytes_memoryLimit {s : State} {n : Nat} {a b : Word} {st : List Word} (hst : s.stack = a :: b :: st)
    (h : ¬LengthFits s (lengthAfter s a.toNat n)) : storeBytes n s = .next (faulted .memoryLimit 0 s) := by
  simp only [storeBytes, hst, memGrow_eq_none h]
  rfl

theorem loadBytes_memoryLimit {s : State} {n : Nat} {a : Word} {st : List Word} (hst : s.stack = a :: st)
    (h : ¬LengthFits s (lengthAfter s a.toNat n)) : loadBytes n s = .next (faulted .memoryLimit 0 s) := by
  simp only [loadBytes, hst, memGrow_eq_none h]
  rfl

theorem memWrite_of_le {s : State} {a n : Nat} (h : a + n ≤ s.memLen) (v : Nat) :
    memWrite a n v s = some (s.withMemory (s.mem.setBytes a (bytesBe v n)) s.memLen) := if_pos h

/-- A store whose length fits completes; it changes the bytes of its range and no other. -/
theorem storeBytes_complete {s : State} {n : Nat} {a b : Word} {st : List Word} (hst : s.stack = a :: b :: st)
    (hs : memorySound s = true) (hu : 0 < s.cfg.growthUnit) (hf : LengthFits s (lengthAfter s a.toNat n)) :
    ∃ m, storeBytes n s = complete 0 st (s.withMemory m (lengthAfter s a.toNat n)) ∧ m.wf = true ∧
      ∀ x, m.get x = if a.toNat ≤ x ∧ x < a.toNat + n then (bytesBe (b.toNat % 256 ^ n) n).getD (x - a.toNat) 0
        else s.mem.get x := by
  obtain ⟨m, hg, hwf, -⟩ := memGrow_eq_some hf
  have hm : m.wf = true := hwf ((memorySound_iff s).mp hs).1
  have hget (x : Nat) : m.get x = s.mem.get x := memGrow_get_of_sound hs hg x
  refine ⟨m.setBytes a.toNat (bytesBe (b.toNat % 256 ^ n) n), ?_, setBytes_wf _ _ hm, fun x => ?_⟩
  · have hw := memWrite_of_le (s := s.withMemory m (lengthAfter s a.toNat n)) (add_le_lengthAfter hu a.toNat n)
      (b.toNat % 256 ^ n)
    simp only [storeBytes, hst, hg, hw]
    rfl
  · rw [get_setBytes hm, length_bytesBe, hget]

theorem toNat_maxOffset : (BitVec.ofNat 256 (2 ^ 256 - 1)).toNat = 2 ^ 256 - 1 := by decide

/-- Settles O57: the end of the access, 2^256 or 2^256 + 31, is above every finite `MEM_CAP`, and the range of the
store begins at the offset itself. -/
theorem offsetsDoNotWrap : Obligations.OffsetsDoNotWrap := by
  refine ⟨fun s b st c hst hcap hc hu => ?_, fun s b st hst hcap hu hs hlen => ?_⟩
  · have hlimit (n : Nat) (hn : 0 < n) :
        ¬LengthFits s (lengthAfter s (BitVec.ofNat 256 (2 ^ 256 - 1)).toNat n) :=
      not_lengthFits_of_memCap_lt hcap hu (by rw [toNat_maxOffset]; omega)
    exact ⟨storeBytes_memoryLimit hst (hlimit 32 (by decide)), loadBytes_memoryLimit hst (hlimit 32 (by decide)),
      storeBytes_memoryLimit hst (hlimit 1 (by decide))⟩
  · obtain ⟨m, hex, -, hget⟩ :=
      storeBytes_complete (n := 32) hst hs (by omega) (lengthFits_of_unbounded hcap _)
    refine ⟨_, hex, ?_, fun x hx => ?_⟩
    · show lengthAfter s _ 32 = _
      rw [lengthAfter_of_unit_one hu, toNat_maxOffset, Nat.max_eq_right (by omega)]
      omega
    · show m.get x = _
      rw [hget, toNat_maxOffset, if_neg (by omega)]

end Sys2Proof.Machine
end

section
/-! The pseudo-instruction `PUSH v`: the least number of bytes that hold v, and the push of that size
(30_encoding.md R91). -/

namespace Sys2Proof

open Sys2Proof.Claims

/-- The search stops at the least size: the sizes from it on are exactly those that hold v. -/
theorem leastBytes_le_iff {v fuel : Nat} (hv : v < 256 ^ fuel) (k : Nat) : leastBytes v fuel ≤ k ↔ v < 256 ^ k := by
  induction fuel with
  | zero =>
    obtain rfl : v = 0 := by simpa using hv
    simp [leastBytes]
  | succ fuel ih =>
    by_cases h : v < 256 ^ fuel
    · rw [leastBytes, if_pos h, ih h]
    · rw [leastBytes, if_neg h]
      refine ⟨fun hk => lt_of_lt_of_le hv (Nat.pow_le_pow_right (by decide) hk), fun hk => ?_⟩
      exact (Nat.pow_lt_pow_iff_right (by decide)).mp (lt_of_le_of_lt (Nat.not_lt.mp h) hk)

theorem immBytes_eq_immSize (i : Instr) : immBytes i = i.immSize := by cases i <;> rfl

theorem pushOp_instr_immSize {n : Nat} (hn : n ≤ 32) (v : Word) : ((pushOp n).instr v).immSize = n := by
  rw [Instr.immSize, Op.instr_op, pushOp_immSize hn]

/-- `PUSH0` drops its immediate, but the only word of no bytes is 0. -/
theorem pushOp_instr_imm {n : Nat} {v : Word} (hn : n ≤ 32) (hv : v.toNat < 256 ^ n) :
    ((pushOp n).instr v).imm = v := by
  rw [Op.instr_imm, pushOp_immSize hn]
  split
  case isTrue h0 =>
    have hzero : v.toNat = 0 := by simpa [h0] using hv
    exact (BitVec.eq_of_toNat_eq hzero).symm
  case isFalse => rfl

theorem pushOp_instr_wellFormed {n : Nat} {v : Word} (hn : n ≤ 32) (hv : v.toNat < 256 ^ n) :
    ((pushOp n).instr v).wellFormed = true := by
  rwa [Instr.wellFormed_iff, pushOp_instr_imm hn hv, pushOp_instr_immSize hn]

/-- Settles O60: n is the size that the search finds, and each clause asks whether some size holds v. -/
theorem assemblePushIsShortest : Obligations.AssemblePushIsShortest := by
  refine ⟨fun v => ?_, fun _ => rfl⟩
  have hword : v.toNat < 256 ^ 32 := lt_of_lt_of_le v.isLt (by decide)
  have hle (k : Nat) : leastBytes v.toNat 32 ≤ k ↔ v.toNat < 256 ^ k := leastBytes_le_iff hword k
  have hn : leastBytes v.toNat 32 ≤ 32 := (hle 32).mpr hword
  have hv : v.toNat < 256 ^ leastBytes v.toNat 32 := (hle _).mp le_rfl
  refine ⟨leastBytes v.toNat 32, hn, rfl, pushOp_instr_wellFormed hn hv, pushOp_instr_imm hn hv,
    (immBytes_eq_immSize _).trans (pushOp_instr_immSize hn v), hv, fun h0 => ?_, fun hne => ?_⟩
  · exact Nat.le_zero.mp ((hle 0).mpr (by simp [h0]))
  · have hpos : 0 < leastBytes v.toNat 32 := Nat.not_le.mp fun h =>
      hne (BitVec.eq_of_toNat_eq (Nat.lt_one_iff.mp ((hle 0).mp h)))
    refine ⟨hpos, Nat.not_lt.mp fun h => ?_⟩
    exact absurd ((hle _).mpr h) (by omega)

end Sys2Proof
end

section
/-! One step of the running engine, by the byte at the pc: where the run ends, what an invalid byte raises, and how far
an instruction moves the pc (40_dispatch_and_push.md R100, R101; 60_exceptions.md R203). -/

namespace Sys2Proof.Machine

open Sys2Proof.Claims

theorem pc_lt_codeLen_of_byte {s : State} {b : Byte} (hb : s.code[s.pc]? = some b) : s.pc < s.codeLen :=
  (List.getElem?_eq_some_iff.mp hb).1

theorem byte_and_rest_of_drop {s : State} {b : Byte} {rest : List Byte} (h : s.code.drop s.pc = b :: rest) :
    s.code[s.pc]? = some b ∧ s.code.drop (s.pc + 1) = rest := by
  refine ⟨?_, by rw [← List.drop_drop, h, List.drop_one, List.tail_cons]⟩
  rw [← List.head?_drop, h, List.head?_cons]

/-! ### What stands at the pc -/

theorem fetch_of_byte {s : State} {b : Byte} (hb : s.code[s.pc]? = some b) :
    fetch s = decode s.cfg.opcodeMap (b :: s.code.drop (s.pc + 1)) := by
  obtain ⟨hlt, rfl⟩ := List.getElem?_eq_some_iff.mp hb
  rw [fetch, List.drop_eq_getElem_cons hlt]

theorem fetch_eq_invalidOpcode {s : State} {b : Byte} (hb : s.code[s.pc]? = some b)
    (ho : opOfByte b s.cfg.opcodeMap = none) : fetch s = .invalidOpcode b := by
  simp only [fetch_of_byte hb, decode_cons, ho]

/-- R101: the immediate is read from the bytes behind the opcode byte. -/
theorem fetch_eq_instr {s : State} {b : Byte} {o : Op} (hb : s.code[s.pc]? = some b)
    (ho : opOfByte b s.cfg.opcodeMap = some o) :
    fetch s = .instr (o.instr (BitVec.ofNat 256 (be (takePad o.immSize (s.code.drop (s.pc + 1)))))) := by
  simp only [fetch_of_byte hb, decode_cons, ho]

/-! ### What the step then does -/

theorem step_eq_done {s : State} (hrun : s.status = .running) (hpc : s.code.length ≤ s.pc) :
    step s = .next { s with status := .done } := by
  rcases step_cases s with ⟨hne, -⟩ | ⟨-, -, hstep⟩ | ⟨-, hlt, -⟩ | ⟨-, hlt, -⟩
  · exact absurd hrun hne
  · exact hstep
  all_goals exact absurd hpc (Nat.not_le.mpr hlt)

theorem step_of_fetch_eq_instr {s : State} {i : Instr} (hrun : s.status = .running) (hf : fetch s = .instr i) :
    step s = exec i s := by
  simp only [step, hrun, hf]

/-- R203: an invalid byte is found before anything is read from the stack. -/
theorem step_of_invalid_byte {s : State} {b : Byte} (hrun : s.status = .running) (hb : s.code[s.pc]? = some b)
    (ho : opOfByte b s.cfg.opcodeMap = none) : step s = .next (faulted .invalidOpcode b s) := by
  simp only [step, hrun, fetch_eq_invalidOpcode hb ho]
  rfl

/-- An instruction that answers a next state has moved the pc behind itself, its phase unchanged, or it has raised a
fault. -/
theorem exec_next_cases {i : Instr} {s t : State} (h : exec i s = .next t) :
    (t.status = s.status ∧ t.pc = s.pc + 1 + immBytes i) ∨ (∃ k, k ≠ .noFault ∧ t = faulted k 0 s) := by
  rcases exec_ends i s with ⟨k, hk, -, hfault⟩ | ⟨st, m, len, hdone, -, -⟩ | ⟨-, hout⟩
  · exact .inr ⟨k, hk, Host.Outcome.next.inj (h.symm.trans hfault)⟩
  · obtain rfl := Host.Outcome.next.inj (h.symm.trans hdone)
    exact .inl ⟨rfl, by rw [immBytes_eq_immSize]; exact (Nat.add_assoc ..).symm⟩
  · simp [hout] at h

/-- Settles O6: at the end of Code the step only ends the run; before it, the byte at the pc decides between
`InvalidOpcode` and the decoded instruction. -/
theorem runEndsAtCodeEnd : Obligations.RunEndsAtCodeEnd := by
  intro s hrun
  refine ⟨step_eq_done hrun, fun hlt => ?_⟩
  have hb : s.code[s.pc]? = some s.code[s.pc] := List.getElem?_eq_getElem hlt
  refine ⟨s.code[s.pc], hb, ?_⟩
  cases ho : opOfByte s.code[s.pc] s.cfg.opcodeMap with
  | none => exact .inl ⟨rfl, step_of_invalid_byte hrun hb ho⟩
  | some o =>
    have hf := fetch_eq_instr hb ho
    have hstep := step_of_fetch_eq_instr hrun hf
    refine .inr ⟨_, by rw [Op.instr_op], hf, hstep, fun t ht => ?_⟩
    rw [← hrun]
    exact exec_next_cases (hstep.symm.trans ht)

/-- Settles O7: the byte at the pc decides before the stack is looked at, and the pc follows from how `exec` can end. -/
theorem instructionCycle : Obligations.InstructionCycle := by
  intro s b hrun hb
  refine ⟨step_of_invalid_byte hrun hb, fun o ho => ?_⟩
  have hstep := step_of_fetch_eq_instr hrun (fetch_eq_instr hb ho)
  refine ⟨_, rfl, hstep, fun t ht => ?_⟩
  rcases exec_next_cases (hstep.symm.trans ht) with ⟨hst, hpc⟩ | ⟨k, -, rfl⟩
  · exact .inl ⟨hst.trans hrun, hpc⟩
  · exact .inr ⟨rfl, rfl⟩

end Sys2Proof.Machine
end

section
/-! The general push: its encoding, its three outcomes in their order, and the value it reads from Code
(40_dispatch_and_push.md R105 to R138). -/

namespace Sys2Proof

open Sys2Proof.Claims

/-! ### Encoding and immediate bytes -/

theorem encode_eq_some {m : OpcodeMap} {i : Instr} {bytes : List Byte} (h : encode m i = some bytes) :
    ∃ b, bytes = b :: bytesBe i.imm.toNat i.immSize := by
  cases hb : byteOfOp i.op m with
  | none => simp [encode, hb] at h
  | some b => exact ⟨b, by simpa [encode, hb] using h.symm⟩

theorem oneByte_of_immSize_eq_zero {i : Instr} (h : i.immSize = 0) : OneByte i := by
  intro m bytes henc
  obtain ⟨b, rfl⟩ := encode_eq_some henc
  simp [h]

theorem pushOp_instr_imm_of_pos {n : Nat} (hpos : 0 < n) (hn : n ≤ 32) (v : Word) :
    ((pushOp n).instr v).imm = v := by
  rw [Op.instr_imm, pushOp_immSize hn, if_neg (Nat.ne_of_gt hpos)]

/-- Byte j of the immediate is byte j of the list, or 0 past its end. -/
theorem getElem?_takePad {n j : Nat} (hj : j < n) (bs : List Byte) : (takePad n bs)[j]? = some (bs[j]?.getD 0) := by
  induction n generalizing j bs with
  | zero => omega
  | succ n ih =>
    cases j with
    | zero => cases bs <;> rfl
    | succ j =>
      have hj' : j < n := Nat.lt_of_succ_lt_succ hj
      cases bs with
      | nil => simpa [takePad] using ih hj' []
      | cons b bs => simpa [takePad] using ih hj' bs

end Sys2Proof

namespace Sys2Proof.Machine

open Sys2Proof.Claims

theorem hasRoom_eq_true_iff (s : State) : s.hasRoom = true ↔ HasRoom s := within_iff _ _

/-! ### The outcomes of a push, in the order of R105 -/

theorem pushWord_complete {s : State} (hr : HasRoom s) (n : Nat) (v : Word) :
    pushWord n v s = .next { s with pc := s.pc + 1 + n, stack := v :: s.stack } := by
  rw [pushWord, if_pos ((hasRoom_eq_true_iff s).mpr hr), Nat.add_assoc]
  rfl

theorem pushWord_overflow {s : State} (hr : ¬HasRoom s) (n : Nat) (v : Word) :
    pushWord n v s = .next (faulted .stackOverflow 0 s) :=
  if_neg (mt (hasRoom_eq_true_iff s).mp hr)

theorem pushImm_truncated {s : State} {n : Nat} (hlt : s.code.length < s.pc + 1 + n)
    (hend : s.cfg.pushPastEnd = .fault) (v : Word) : pushImm n v s = .next (faulted .truncatedCode 0 s) :=
  if_pos ⟨hlt, hend⟩

theorem pushImm_eq_pushWord {s : State} {n : Nat} (h : ¬(s.code.length < s.pc + 1 + n ∧ s.cfg.pushPastEnd = .fault))
    (v : Word) : pushImm n v s = pushWord n v s := if_neg h

theorem not_truncated {s : State} {n : Nat} (h : s.pc + 1 + n ≤ s.code.length ∨ s.cfg.pushPastEnd = .zeroPad) :
    ¬(s.code.length < s.pc + 1 + n ∧ s.cfg.pushPastEnd = .fault) := by
  rintro ⟨hlt, hfault⟩
  rcases h with hle | hpad
  · omega
  · simp [hpad] at hfault

/-! ### Which push the engine executes -/

theorem exec_pushOp_instr {n : Nat} (hpos : 0 < n) (hn : n ≤ 32) (v : Word) (s : State) :
    exec ((pushOp n).instr v) s = pushImm n v s := by
  interval_cases n <;> rfl

/-- `PUSH0` has no range check of its own, but with its opcode byte inside Code the check of R105 cannot fail. -/
theorem step_of_push_byte {s : State} {b : Byte} {n : Nat} (hn : n ≤ 32) (hrun : s.status = .running)
    (hb : s.code[s.pc]? = some b) (ho : opOfByte b s.cfg.opcodeMap = some (pushOp n)) :
    step s = pushImm n (BitVec.ofNat 256 (be (takePad n (s.code.drop (s.pc + 1))))) s := by
  rw [step_of_fetch_eq_instr hrun (fetch_eq_instr hb ho), pushOp_immSize hn]
  rcases Nat.eq_zero_or_pos n with rfl | hpos
  · rw [pushImm_eq_pushWord (not_truncated (.inl (pc_lt_codeLen_of_byte hb)))]
    rfl
  · exact exec_pushOp_instr hpos hn _ s

/-- Settles O42: `imm` is what the decoder reads, and the clauses are the outcomes of the push. -/
theorem pushReadsCodeBytes : Obligations.PushReadsCodeBytes := by
  intro s b n imm hn hrun hb ho hlen hget
  have himm : takePad n (s.code.drop (s.pc + 1)) = imm := by
    refine List.ext_getElem? fun j => ?_
    rcases Nat.lt_or_ge j n with hj | hj
    · rw [getElem?_takePad hj, List.getElem?_drop, hget j hj]
    · rw [List.getElem?_eq_none (by simpa using hj), List.getElem?_eq_none (by omega)]
  have hstep := step_of_push_byte hn hrun hb ho
  rw [himm] at hstep
  refine ⟨fun hlt hend => hstep.trans (pushImm_truncated hlt hend _), fun h => ?_⟩
  rw [hstep, pushImm_eq_pushWord h]
  exact ⟨fun hr => pushWord_overflow hr n _, fun hr => ⟨hlen ▸ be_lt imm, pushWord_complete hr n _⟩⟩

/-! ### Each push by its own name -/

theorem pushes_pushOp (n : Nat) (hpos : 0 < n := by decide) (hn : n ≤ 32 := by decide) :
    Pushes n (pushOp n) (pushOp n).instr := by
  refine ⟨fun m v bytes henc => ?_, fun s v _ hin hr => ?_, fun s v _ hlt hend => ?_, fun s v _ hin hr => ?_,
    fun s b imm tail hrun hcode hlen ho hr => ?_⟩
  · simpa only [pushOp_instr_imm_of_pos hpos hn, pushOp_instr_immSize hn] using encode_eq_some henc
  · rw [exec_pushOp_instr hpos hn, pushImm_eq_pushWord (not_truncated hin), pushWord_complete hr]
  · rw [exec_pushOp_instr hpos hn, pushImm_truncated hlt hend]
  · rw [exec_pushOp_instr hpos hn, pushImm_eq_pushWord (not_truncated hin), pushWord_overflow hr]
  · obtain ⟨hb, htail⟩ := byte_and_rest_of_drop (rest := imm ++ tail) hcode
    have hin : s.pc + 1 + n ≤ s.code.length := by
      have hcount := congrArg List.length hcode
      simp only [List.length_drop, List.length_append, List.length_cons] at hcount
      omega
    refine ⟨hlen ▸ be_lt imm, ?_⟩
    rw [step_of_push_byte hn hrun hb ho, htail, ← hlen, takePad_append, hlen,
      pushImm_eq_pushWord (not_truncated (.inl hin)), pushWord_complete hr]

theorem pushesZero : PushesZero :=
  ⟨oneByte_of_immSize_eq_zero rfl, fun _ hr => pushWord_complete hr 0 0, fun _ hr => pushWord_overflow hr 0 0⟩

theorem encode_push1_default (v : Word) : encode defaultOpcodeMap (.push1 v) = some [0x60, BitVec.ofNat 8 v.toNat] := by
  have hbyte : byteOfOp .push1 defaultOpcodeMap = some 0x60 := by decide
  simp only [encode, Instr.op, hbyte, Instr.imm, Instr.immSize, Op.immSize, bytesBe, Nat.pow_zero, Nat.div_one]

/-- Settles O39: each size is a case of the general push, beside `PUSH0` and the default byte of `PUSH1`. -/
theorem pushZeroToTen : Obligations.PushZeroToTen :=
  ⟨encode_push1_default, pushesZero, pushes_pushOp 1, pushes_pushOp 2, pushes_pushOp 3, pushes_pushOp 4,
    pushes_pushOp 5, pushes_pushOp 6, pushes_pushOp 7, pushes_pushOp 8, pushes_pushOp 9, pushes_pushOp 10⟩

/-- Settles O40: each size is a case of the general push. -/
theorem pushElevenToTwentyone : Obligations.PushElevenToTwentyone :=
  ⟨pushes_pushOp 11, pushes_pushOp 12, pushes_pushOp 13, pushes_pushOp 14, pushes_pushOp 15, pushes_pushOp 16,
    pushes_pushOp 17, pushes_pushOp 18, pushes_pushOp 19, pushes_pushOp 20, pushes_pushOp 21⟩

/-- Settles O41: each size is a case of the general push. -/
theorem pushTwentytwoToThirtytwo : Obligations.PushTwentytwoToThirtytwo :=
  ⟨pushes_pushOp 22, pushes_pushOp 23, pushes_pushOp 24, pushes_pushOp 25, pushes_pushOp 26, pushes_pushOp 27,
    pushes_pushOp 28, pushes_pushOp 29, pushes_pushOp 30, pushes_pushOp 31, pushes_pushOp 32⟩

end Sys2Proof.Machine
end

section
/-! The opcodes that pop two or three words and push one, through the word function each of them names; and what the
arithmetic word functions compute (41_arithmetic.md R141 to R144, R146, R148 to R151). -/

namespace Sys2Proof.Machine

open Sys2Proof.Claims

/-! ### Completion, frame and underflow of an operand form -/

theorem popsTwo_of_exec_eq_binary {i : Instr} {f : Config → Word → Word → Word}
    {r : Config → Word → Word → Word → Prop} (hsize : i.immSize = 0)
    (hexec : ∀ s, exec i s = binary (f s.cfg) s) (hr : ∀ cfg a b, r cfg a b (f cfg a b)) : PopsTwo i r := by
  refine ⟨oneByte_of_immSize_eq_zero hsize, fun s a b st hst => ⟨_, hr s.cfg a b, ?_⟩, fun s hlt => ?_⟩
  · simp only [hexec, binary, hst]
    rfl
  · rw [hexec]
    rcases binary_cases (f s.cfg) s with ⟨-, hfault⟩ | ⟨a, b, st, hst, -⟩
    · exact hfault
    · simp only [hst, List.length_cons] at hlt
      omega

theorem popsThree_of_exec_eq_ternary {i : Instr} {f : Word → Word → Word → Word}
    {r : Word → Word → Word → Word → Prop} (hsize : i.immSize = 0)
    (hexec : ∀ s, exec i s = ternary f s) (hr : ∀ a b c, r a b c (f a b c)) : PopsThree i r := by
  refine ⟨oneByte_of_immSize_eq_zero hsize, fun s a b c st hst => ⟨_, hr a b c, ?_⟩, fun s hlt => ?_⟩
  · simp only [hexec, ternary, hst]
    rfl
  · rw [hexec]
    rcases ternary_cases f s with ⟨-, hfault⟩ | ⟨a, b, c, st, hst, -⟩
    · exact hfault
    · simp only [hst, List.length_cons] at hlt
      omega

/-! ### Readings of a word -/

theorem u256_toNat_of_lt {n : Nat} (h : n < 2 ^ 256) : (u256 (n : Int)).toNat = n := by
  rw [u256_natCast_toNat, Nat.mod_eq_of_lt h]

/-- `u256` reduces negative integers too, to the representative in [0, 2^256). -/
theorem natCast_u256_toNat (z : Int) : ((u256 z).toNat : Int) = z % 2 ^ 256 := by
  rw [u256, BitVec.toNat_ofInt, Int.toNat_of_nonneg (Int.emod_nonneg z (by decide))]
  rfl

theorem toNat_pos_of_ne_zero {a : Word} (h : a ≠ 0) : 0 < a.toNat :=
  Nat.pos_of_ne_zero fun h0 => h (BitVec.eq_of_toNat_eq h0)

/-- A remainder by a word is below it, so it fits a word however large the number divided was. -/
theorem u256_mod_toNat (x : Nat) {c : Word} (hc : c ≠ 0) : (u256 (x % c.toNat : Nat)).toNat = x % c.toNat :=
  u256_toNat_of_lt ((Nat.mod_lt x (toNat_pos_of_ne_zero hc)).trans c.isLt)

/-! ### Sum, product and difference -/

theorem addWord_toNat (a b : Word) : (addWord a b).toNat = (a.toNat + b.toNat) % 2 ^ 256 := by
  rw [addWord, ← Nat.cast_add, u256_natCast_toNat]

theorem mulWord_toNat (a b : Word) : (mulWord a b).toNat = a.toNat * b.toNat % 2 ^ 256 := by
  rw [mulWord, ← Nat.cast_mul, u256_natCast_toNat]

/-- Settles O10: the exact sum is reduced once. -/
theorem addPushesSum : Obligations.AddPushesSum :=
  popsTwo_of_exec_eq_binary rfl (fun _ => rfl) fun _ => addWord_toNat

/-- Settles O11: the exact product is reduced once. -/
theorem mulPushesProduct : Obligations.MulPushesProduct :=
  popsTwo_of_exec_eq_binary rfl (fun _ => rfl) fun _ => mulWord_toNat

/-- Settles O12: the difference may be negative, and `u256` reduces it as an integer, in either order. -/
theorem subPushesDifference : Obligations.SubPushesDifference := by
  refine popsTwo_of_exec_eq_binary (f := fun cfg => subWord cfg.subOrder) rfl (fun _ => rfl) fun cfg a b => ?_
  cases cfg.subOrder with
  | firstMinusSecond => exact natCast_u256_toNat _
  | secondMinusFirst => exact natCast_u256_toNat _

/-! ### Quotient and remainders -/

theorem divWord_toNat (a b : Word) : (divWord a b).toNat = if a = 0 then 0 else b.toNat / a.toNat := by
  rw [divWord]
  split
  case isTrue => rfl
  case isFalse => exact u256_toNat_of_lt (lt_of_le_of_lt (Nat.div_le_self ..) b.isLt)

/-- The shape that `MOD`, `ADDMOD` and `MULMOD` share. -/
theorem ite_u256_mod_toNat (x : Nat) (c : Word) :
    (if c = 0 then 0 else u256 (x % c.toNat : Nat)).toNat = if c = 0 then 0 else x % c.toNat := by
  split
  case isTrue => rfl
  case isFalse hc => exact u256_mod_toNat x hc

/-- Settles O13: the quotient is no more than the dividend, so nothing is reduced. -/
theorem divPushesFloorQuotient : Obligations.DivPushesFloorQuotient :=
  popsTwo_of_exec_eq_binary rfl (fun _ => rfl) fun _ => divWord_toNat

/-- Settles O15: the first word popped is the divisor. -/
theorem modPushesRemainder : Obligations.ModPushesRemainder :=
  popsTwo_of_exec_eq_binary (f := fun _ => modWord) rfl (fun _ => rfl) fun _ a b => ite_u256_mod_toNat b.toNat a

/-- Settles O17: the exact sum is what is divided. -/
theorem addmodUsesExactSum : Obligations.AddmodUsesExactSum :=
  popsThree_of_exec_eq_ternary (f := addmodWord) rfl (fun _ => rfl)
    fun a b c => ite_u256_mod_toNat (a.toNat + b.toNat) c

/-- Settles O18: the exact product is what is divided. -/
theorem mulmodUsesExactProduct : Obligations.MulmodUsesExactProduct :=
  popsThree_of_exec_eq_ternary (f := mulmodWord) rfl (fun _ => rfl)
    fun a b c => ite_u256_mod_toNat (a.toNat * b.toNat) c

/-! ### Power -/

/-- Settles O19, by the law of square-and-multiply. -/
theorem expPushesPower : Obligations.ExpPushesPower :=
  popsTwo_of_exec_eq_binary rfl (fun _ => rfl) fun _ => expWord_toNat

/-! ### Sign extension -/

/-- Bit t - 1 of the low t bits of b, as `extendLow` tests it. -/
theorem msb_setWidth_eq_false_iff {t : Nat} (b : Word) :
    (b.setWidth t).msb = false ↔ b.toNat % 2 ^ t / 2 ^ (t - 1) = 0 := by
  rw [BitVec.msb_eq_decide, BitVec.toNat_setWidth, decide_eq_false_iff_not, Nat.not_le,
    Nat.div_eq_zero_iff_lt (Nat.two_pow_pos _)]

/-- R151: with the sign bit clear the low bits are the value; with it set, the bits above are all ones, which adds
2^256 - 2^t. -/
theorem extendLow_eq_signExtend {t : Nat} (ht : t ≤ 256) (b : Word) :
    extendLow t b = (b.setWidth t).signExtend 256 := by
  have hlow : b.toNat % 2 ^ t < 2 ^ t := Nat.mod_lt _ (Nat.two_pow_pos t)
  have hpow : 2 ^ t ≤ 2 ^ 256 := Nat.pow_le_pow_right (by decide) ht
  apply BitVec.eq_of_toNat_eq
  rw [BitVec.toNat_signExtend, BitVec.toNat_setWidth, BitVec.toNat_setWidth, Nat.mod_eq_of_lt (hlow.trans_le hpow),
    extendLow]
  cases hmsb : (b.setWidth t).msb with
  | false =>
    rw [if_pos ((msb_setWidth_eq_false_iff b).mp hmsb), u256_toNat_of_lt (hlow.trans_le hpow)]
    rfl
  | true =>
    have hbit : ¬b.toNat % 2 ^ t / 2 ^ (t - 1) = 0 := by
      rw [← msb_setWidth_eq_false_iff, hmsb]
      decide
    rw [if_neg hbit, u256_toNat_of_lt (by omega), if_pos rfl, Nat.add_sub_assoc hpow]

/-- Settles O20: a count below 32 selects at most 256 bits. -/
theorem signextendExtendsLowBytes : Obligations.SignextendExtendsLowBytes := by
  refine popsTwo_of_exec_eq_binary (f := fun _ => signextendWord) rfl (fun _ => rfl) fun _ a b => ?_
  by_cases h : 32 ≤ a.toNat
  · rw [if_pos h, signextendWord, if_pos h]
  · rw [if_neg h, signextendWord, if_neg h]
    exact extendLow_eq_signExtend (by omega) b

end Sys2Proof.Machine
end

section
/-! The comparison opcodes: each pushes the truth word of its test (42_comparison.md R160 to R166). Beside them, the
form of every opcode that pops one word and pushes one. -/

namespace Sys2Proof.Machine

open Sys2Proof.Claims

/-! ### Completion, frame and underflow of the one-word form -/

theorem popsOne_of_exec_eq_unary {i : Instr} {f : Word → Word} {r : Word → Word → Prop} (hsize : i.immSize = 0)
    (hexec : ∀ s, exec i s = unary f s) (hr : ∀ a, r a (f a)) : PopsOne i r := by
  refine ⟨oneByte_of_immSize_eq_zero hsize, fun s a st hst => ⟨_, hr a, ?_⟩, fun s hlt => ?_⟩
  · simp only [hexec, unary, hst]
    rfl
  · rw [hexec]
    rcases unary_cases f s with ⟨-, hfault⟩ | ⟨a, st, hst, -⟩
    · exact hfault
    · simp only [hst, List.length_cons] at hlt
      omega

/-! ### The truth word of a test -/

theorem isTruth_truth_of_iff {t : Bool} {p : Prop} (h : t = true ↔ p) : IsTruth p (truth t) :=
  ⟨fun hp => if_pos (h.mpr hp), fun hp => if_neg (mt h.mp hp)⟩

theorem popsTwo_isTruth_of_test {i : Instr} {t : Word → Word → Bool} {p : Word → Word → Prop} (hsize : i.immSize = 0)
    (hexec : ∀ s, exec i s = binary (fun a b => truth (t a b)) s) (ht : ∀ a b, t a b = true ↔ p a b) :
    PopsTwo i fun _ a b w => IsTruth (p a b) w :=
  popsTwo_of_exec_eq_binary (f := fun _ a b => truth (t a b)) hsize hexec fun _ a b => isTruth_truth_of_iff (ht a b)

/-! ### Signed order -/

/-- Settles O23: the reading of R12 is the two's-complement value, and no parameter enters the test. -/
theorem sltComparesSignedReadings : Obligations.SltComparesSignedReadings :=
  popsTwo_isTruth_of_test rfl (fun _ => rfl) fun a b => by rw [decide_eq_true_iff, s256_eq_toInt, s256_eq_toInt]

/-- Settles O24: as for `SLT`, with the order turned round. -/
theorem sgtComparesSignedReadings : Obligations.SgtComparesSignedReadings :=
  popsTwo_isTruth_of_test rfl (fun _ => rfl) fun a b => by rw [decide_eq_true_iff, s256_eq_toInt, s256_eq_toInt]

/-! ### Unsigned order and equality -/

/-- Settles O21: the word popped second is the left operand of the test. -/
theorem ltComparesSecondWithFirst : Obligations.LtComparesSecondWithFirst :=
  popsTwo_isTruth_of_test rfl (fun _ => rfl) fun _ _ => decide_eq_true_iff

/-- Settles O22: the word popped second is the left operand of the test. -/
theorem gtComparesSecondWithFirst : Obligations.GtComparesSecondWithFirst :=
  popsTwo_isTruth_of_test rfl (fun _ => rfl) fun _ _ => decide_eq_true_iff

/-- Settles O25: words are equal exactly when their numbers are. -/
theorem eqComparesAllBits : Obligations.EqComparesAllBits :=
  popsTwo_isTruth_of_test rfl (fun _ => rfl) fun _ _ => decide_eq_true_iff.trans BitVec.toNat_inj.symm

/-- Settles O26: the zero word is the only word whose number is 0. -/
theorem iszeroTestsTheWord : Obligations.IszeroTestsTheWord :=
  popsOne_of_exec_eq_unary (f := fun a => truth (decide (a = 0))) rfl (fun _ => rfl) fun _ =>
    isTruth_truth_of_iff (decide_eq_true_iff.trans BitVec.toNat_inj.symm)

end Sys2Proof.Machine
end

section
/-! The bitwise opcodes, and `SHL` and `SHR`: what their word functions compute, bit by bit or as numbers
(43_bitwise.md R171 to R177). -/

namespace Sys2Proof.Machine

open Sys2Proof.Claims

/-! ### Shifts by the whole amount -/

/-- R176: an amount of 256 or more leaves a multiple of 2^256, so testing for it first changes nothing. -/
theorem shlWord_toNat (a b : Word) : (shlWord a b).toNat = b.toNat * 2 ^ a.toNat % 2 ^ 256 := by
  rw [shlWord]
  split
  case isTrue h => exact (Nat.mod_eq_zero_of_dvd ((Nat.pow_dvd_pow 2 h).mul_left _)).symm
  case isFalse => exact_mod_cast u256_natCast_toNat (b.toNat * 2 ^ a.toNat)

/-- R177: a word is below 2^256, so an amount of 256 or more leaves quotient 0. -/
theorem shrWord_toNat (a b : Word) : (shrWord a b).toNat = b.toNat / 2 ^ a.toNat := by
  rw [shrWord]
  split
  case isTrue h => exact (Nat.div_eq_of_lt (b.isLt.trans_le (Nat.pow_le_pow_right (by decide) h))).symm
  case isFalse => exact u256_toNat_of_lt ((Nat.div_le_self ..).trans_lt b.isLt)

/-- Settles O32: the amount is never reduced. -/
theorem shlShiftsByFullAmount : Obligations.ShlShiftsByFullAmount :=
  popsTwo_of_exec_eq_binary rfl (fun _ => rfl) fun _ => shlWord_toNat

/-- Settles O33: the amount is never reduced. -/
theorem shrShiftsByFullAmount : Obligations.ShrShiftsByFullAmount :=
  popsTwo_of_exec_eq_binary rfl (fun _ => rfl) fun _ => shrWord_toNat

/-! ### Bit by bit -/

/-- Settles O27: the operator of the model is the bitwise one at every position. -/
theorem andCombinesBits : Obligations.AndCombinesBits :=
  popsTwo_of_exec_eq_binary (f := fun _ a b => a &&& b) rfl (fun _ => rfl) fun _ _ _ _ _ => BitVec.getLsbD_and

/-- Settles O28, as for `AND`. -/
theorem orCombinesBits : Obligations.OrCombinesBits :=
  popsTwo_of_exec_eq_binary (f := fun _ a b => a ||| b) rfl (fun _ => rfl) fun _ _ _ _ _ => BitVec.getLsbD_or

/-- Settles O29, as for `AND`. -/
theorem xorCombinesBits : Obligations.XorCombinesBits :=
  popsTwo_of_exec_eq_binary (f := fun _ a b => a ^^^ b) rfl (fun _ => rfl) fun _ _ _ _ _ => BitVec.getLsbD_xor

/-- 2^256 - 1 - a is taken on integers and stays a word, since a is at most 2^256 - 1. -/
theorem u256_complement_toNat (a : Word) : (u256 (2 ^ 256 - 1 - a.toNat)).toNat = 2 ^ 256 - 1 - a.toNat := by
  have hcast : (2 ^ 256 - 1 - a.toNat : Int) = (2 ^ 256 - 1 - a.toNat : Nat) := by omega
  rw [hcast]
  exact u256_toNat_of_lt (by omega)

/-- Settles O30: the complement on 256 bits is the distance to the largest word. -/
theorem notComplementsAllBits : Obligations.NotComplementsAllBits :=
  popsOne_of_exec_eq_unary (f := fun a => u256 (2 ^ 256 - 1 - a.toNat)) rfl (fun _ => rfl) u256_complement_toNat

/-! ### One byte of a word -/

theorem byteWord_toNat (a b : Word) :
    (byteWord a b).toNat = if 32 ≤ a.toNat then 0 else b.toNat / 2 ^ (8 * (31 - a.toNat)) % 256 := by
  rw [byteWord]
  split
  case isTrue => rfl
  case isFalse => exact u256_toNat_of_lt ((Nat.mod_lt _ (by decide)).trans (by decide))

/-- Settles O31: the index is compared whole before a byte is taken. -/
theorem byteExtractsIndexedByte : Obligations.ByteExtractsIndexedByte :=
  popsTwo_of_exec_eq_binary rfl (fun _ => rfl) fun _ => byteWord_toNat

end Sys2Proof.Machine
end

section
/-! The Memory opcodes: the bytes a store leaves, the word a load pushes, and the length `MSIZE` pushes
(44_memory_ops.md R191 to R194). -/

namespace Sys2Proof.Machine

open Sys2Proof.Claims

/-! ### Bytes of a word -/

/-- What a store keeps of its value is all that its bytes depend on. -/
theorem bytesBe_mod (v n : Nat) : bytesBe (v % 256 ^ n) n = bytesBe v n := by
  rw [← bytesBe_add (v % 256 ^ n) (v / 256 ^ n) n, Nat.div_add_mod']

/-- Byte k of a big-endian number is byte k of the list it was read from. -/
theorem be_div_mod {bs : List Byte} {k : Nat} (hk : k < bs.length) :
    be bs / 256 ^ (bs.length - 1 - k) % 256 = (bs.getD k 0).toNat := by
  have hbyte := bytesBe_getD (v := be bs) hk
  rw [bytesBe_be] at hbyte
  rw [hbyte, BitVec.toNat_ofNat]

/-- As many bytes as a word has fit a word. -/
theorem u256_be_toNat {bs : List Byte} (h : bs.length = 32) : (u256 (be bs)).toNat = be bs := by
  have hlt := be_lt bs
  rw [h] at hlt
  exact u256_toNat_of_lt (hlt.trans_le (by decide))

theorem get_of_memorySound {s : State} {x : Nat} (hs : memorySound s = true) (hx : s.memLen ≤ x) :
    s.mem.get x = 0 := by
  obtain ⟨-, hbelow, -⟩ := (memorySound_iff s).mp hs
  exact get_of_allBelow hbelow hx

/-! ### Stores -/

theorem storeBytes_underflow {s : State} (h : s.stack.length < 2) (n : Nat) :
    storeBytes n s = .next (faulted .stackUnderflow 0 s) := by
  rcases storeBytes_cases n s with ⟨-, hfault⟩ | ⟨a, b, st, hst, -⟩
  · exact hfault
  · simp only [hst, List.length_cons] at h
    omega

theorem stores_of_exec_eq_storeBytes {i : Instr} {n : Nat} (hsize : i.immSize = 0)
    (hexec : ∀ s, exec i s = storeBytes n s) : Stores i n := by
  refine ⟨oneByte_of_immSize_eq_zero hsize, fun s a b st hst hs hu hf => ?_,
    fun s a b st hst hf => (hexec s).trans (storeBytes_memoryLimit hst hf),
    fun s hlt => (hexec s).trans (storeBytes_underflow hlt n)⟩
  obtain ⟨m, hstore, hwf, hget⟩ := storeBytes_complete hst hs hu hf
  have hout (x : Nat) (hx : x < a.toNat ∨ a.toNat + n ≤ x) : m.get x = s.mem.get x := by
    rw [hget, if_neg (by omega)]
  refine ⟨m, (hexec s).trans hstore, hwf, fun k hk => ?_, hout,
    fun x hlen hx => (hout x hx).trans (get_of_memorySound hs hlen)⟩
  rw [hget, if_pos (by omega), Nat.add_sub_cancel_left, bytesBe_mod, bytesBe_getD hk]

/-- Settles O35: the store of all 32 bytes of the value. -/
theorem mstoreWritesBigEndianWord : Obligations.MstoreWritesBigEndianWord :=
  ⟨by decide, stores_of_exec_eq_storeBytes rfl fun _ => rfl⟩

/-- Settles O36: the store of one byte, the last of the value. -/
theorem mstore8WritesLowByte : Obligations.Mstore8WritesLowByte :=
  stores_of_exec_eq_storeBytes rfl fun _ => rfl

/-! ### The load -/

theorem loadBytes_underflow {s : State} (h : s.stack.length < 1) (n : Nat) :
    loadBytes n s = .next (faulted .stackUnderflow 0 s) := by
  rcases loadBytes_cases n s with ⟨-, hfault⟩ | ⟨a, st, hst, -⟩
  · exact hfault
  · simp only [hst, List.length_cons] at h
    omega

theorem memRead_of_le {s : State} {a n : Nat} (h : a + n ≤ s.memLen) :
    memRead a n s = some (be (s.mem.getBytes a n)) := if_pos h

/-- A load whose length fits completes with the bytes that stood there before; it grows Memory and changes no byte. -/
theorem loadBytes_complete {s : State} {n : Nat} {a : Word} {st : List Word} (hst : s.stack = a :: st)
    (hs : memorySound s = true) (hu : 0 < s.cfg.growthUnit) (hf : LengthFits s (lengthAfter s a.toNat n)) :
    ∃ m, loadBytes n s = complete 0 (u256 (be (s.mem.getBytes a.toNat n)) :: st)
        (s.withMemory m (lengthAfter s a.toNat n)) ∧
      ∀ x, m.get x = s.mem.get x := by
  obtain ⟨m, hg, -⟩ := memGrow_eq_some hf
  have hget (x : Nat) : m.get x = s.mem.get x := memGrow_get_of_sound hs hg x
  have hr := memRead_of_le (s := s.withMemory m (lengthAfter s a.toNat n)) (add_le_lengthAfter hu a.toNat n)
  rw [withMemory_mem, getBytes_congr fun x _ _ => hget x] at hr
  exact ⟨m, by simp only [loadBytes, hst, hg, hr], hget⟩

/-- Settles O37: the pushed word is the big-endian reading of the range, and every byte of it is read back from it. -/
theorem mloadReadsBigEndianWord : Obligations.MloadReadsBigEndianWord := by
  refine ⟨oneByte_of_immSize_eq_zero rfl, fun s a st hst hs hu hf => ?_,
    fun s a st hst hf => loadBytes_memoryLimit hst hf, fun s hlt => loadBytes_underflow hlt 32⟩
  obtain ⟨m, hload, hget⟩ := loadBytes_complete hst hs hu hf
  refine ⟨m, _, hload, fun k hk => ?_, hget, fun x hx => (hget x).trans (get_of_memorySound hs hx)⟩
  have hlen : (s.mem.getBytes a.toNat 32).length = 32 := length_getBytes ..
  have hbyte := be_div_mod (hk.trans_eq hlen.symm)
  rw [hlen, getBytes_getD _ hk] at hbyte
  rw [u256_be_toNat hlen]
  exact hbyte

/-! ### The length -/

/-- Settles O38: `MSIZE` is the push of a word without immediate bytes. -/
theorem msizePushesLength : Obligations.MsizePushesLength :=
  ⟨oneByte_of_immSize_eq_zero rfl, fun s hr => ⟨_, u256_natCast_toNat s.memLen, pushWord_complete hr 0 _⟩,
    fun _ hr => pushWord_overflow hr 0 _⟩

end Sys2Proof.Machine
end

section
/-! The fault an instruction reports: the first cause that applies, in the order of R208, and that
every instruction reports it (60_exceptions.md R202 to R206, R208). -/

namespace Sys2Proof.Machine

open Sys2Proof.Claims

/-! ### The causes of an instruction's faults, in their order -/

/-- How many bytes of Memory an instruction accesses from the offset on top on; 0 for one that accesses none. -/
def accessBytes : Instr → Nat
  | .mload | .mstore => 32
  | .mstore8 => 1
  | _ => 0

/-- The immediate runs past the end of Code, and `PUSH_PAST_END` does not pad it (R105). -/
abbrev Truncated (i : Instr) (s : State) : Prop :=
  0 < immBytes i ∧ s.codeLen < s.pc + 1 + immBytes i ∧ s.cfg.pushPastEnd = .fault

/-- The access at the top word needs a length above `MEM_CAP` (R205). -/
abbrev BeyondMemCap (i : Instr) (s : State) : Prop :=
  0 < accessBytes i ∧ within (lengthAfter s (s.stack.headD 0).toNat (accessBytes i)) s.cfg.memCap = false

/-- The first cause of R208 that applies, from (2) on; cause (1) is found before there is an instruction. -/
def firstFault (i : Instr) (s : State) : FaultKind :=
  if Truncated i s then .truncatedCode
  else if s.sp < minDepth i then .stackUnderflow
  else if minDepth i = 0 ∧ s.hasRoom = false then .stackOverflow
  else if BeyondMemCap i s then .memoryLimit
  else .noFault

theorem immBytes_eq_zero_of_minDepth_pos {i : Instr} (h : 0 < minDepth i) : immBytes i = 0 := by
  cases i with
  | add | mul | sub | div | sdiv | mod | smod | addmod | mulmod | exp | signextend => rfl
  | lt | gt | slt | sgt | eq | iszero | and | or | xor | not | byte | shl | shr | sar => rfl
  | mload | mstore | mstore8 => rfl
  | _ => exact absurd h (Nat.lt_irrefl 0)

theorem minDepth_pos_of_accessBytes_pos {i : Instr} (h : 0 < accessBytes i) : 0 < minDepth i := by
  cases i with
  | mload | mstore | mstore8 => decide
  | _ => exact absurd h (Nat.lt_irrefl 0)

theorem not_truncated_of_immBytes_eq_zero {i : Instr} {s : State} (h : immBytes i = 0) : ¬Truncated i s := fun ht =>
  Nat.ne_of_gt ht.1 h

/-- Only a push has an immediate, and a push pops nothing. -/
theorem not_truncated_of_minDepth_pos {i : Instr} {s : State} (h : 0 < minDepth i) : ¬Truncated i s :=
  not_truncated_of_immBytes_eq_zero (immBytes_eq_zero_of_minDepth_pos h)

theorem not_beyondMemCap_of_minDepth_eq_zero {i : Instr} {s : State} (h : minDepth i = 0) : ¬BeyondMemCap i s :=
  fun hm => Nat.ne_of_gt (minDepth_pos_of_accessBytes_pos hm.1) h

theorem firstFault_of_minDepth_pos {i : Instr} (h : 0 < minDepth i) (s : State) :
    firstFault i s = if s.sp < minDepth i then .stackUnderflow
      else if BeyondMemCap i s then .memoryLimit else .noFault := by
  have ho : ¬(minDepth i = 0 ∧ s.hasRoom = false) := fun ho => Nat.ne_of_gt h ho.1
  rw [firstFault, if_neg (not_truncated_of_minDepth_pos h), if_neg ho]

theorem firstFault_of_minDepth_eq_zero {i : Instr} (h : minDepth i = 0) (s : State) :
    firstFault i s = if Truncated i s then .truncatedCode
      else if s.hasRoom = false then .stackOverflow else .noFault := by
  simp only [firstFault, h, Nat.not_lt_zero, if_false, true_and, if_neg (not_beyondMemCap_of_minDepth_eq_zero h)]

theorem firstFault_eq_stackUnderflow_iff (i : Instr) (s : State) :
    firstFault i s = .stackUnderflow ↔ s.sp < minDepth i := by
  rcases Nat.eq_zero_or_pos (minDepth i) with h | h
  · rw [firstFault_of_minDepth_eq_zero h]
    split_ifs <;> simp [h]
  · rw [firstFault_of_minDepth_pos h]
    split_ifs <;> simp [*]

theorem firstFault_eq_stackOverflow_iff (i : Instr) (s : State) :
    firstFault i s = .stackOverflow ↔ minDepth i = 0 ∧ ¬Truncated i s ∧ s.hasRoom = false := by
  rcases Nat.eq_zero_or_pos (minDepth i) with h | h
  · rw [firstFault_of_minDepth_eq_zero h]
    split_ifs <;> simp [*]
  · rw [firstFault_of_minDepth_pos h]
    split_ifs <;> simp [Nat.ne_of_gt h]

theorem firstFault_eq_memoryLimit_iff (i : Instr) (s : State) :
    firstFault i s = .memoryLimit ↔ minDepth i ≤ s.sp ∧ BeyondMemCap i s := by
  rcases Nat.eq_zero_or_pos (minDepth i) with h | h
  · rw [firstFault_of_minDepth_eq_zero h]
    have hm := not_beyondMemCap_of_minDepth_eq_zero (s := s) h
    split_ifs <;> simp [hm]
  · rw [firstFault_of_minDepth_pos h]
    split_ifs with hu hm
    · exact iff_of_false (by decide) fun hd => absurd hu (Nat.not_lt.mpr hd.1)
    · exact iff_of_true rfl ⟨Nat.not_lt.mp hu, hm⟩
    · exact iff_of_false (by decide) fun hd => hm hd.2

theorem firstFault_eq_noFault {i : Instr} {s : State} (hpos : 0 < minDepth i) (hd : minDepth i ≤ s.sp)
    (hm : ¬BeyondMemCap i s) : firstFault i s = .noFault := by
  rw [firstFault_of_minDepth_pos hpos, if_neg (Nat.not_lt.mpr hd), if_neg hm]

/-- R56: the growth of an access is what meets `MEM_CAP`. -/
theorem beyondMemCap_iff_memGrow {i : Instr} {s : State} {a : Word} {st : List Word} (hacc : 0 < accessBytes i)
    (hst : s.stack = a :: st) : BeyondMemCap i s ↔ memGrow a.toNat (accessBytes i) s = none := by
  rw [BeyondMemCap, hst, List.headD_cons, lengthAfter_eq_grownLen]
  rcases memGrow_cases a.toNat (accessBytes i) s with ⟨hw, hg⟩ | ⟨hw, m, hg, -⟩ <;> simp [hacc, hw, hg]

/-! ### Every operand form reports the first cause -/

/-- The outcome of an instruction started in s reports a fault kind; `noFault` stands for completion, and for the stop
that only a growth unit of 0 can reach. -/
inductive Reports (s : State) : FaultKind → Result → Prop
  | fault (k : FaultKind) : Reports s k (takeFault k s)
  | complete (n : Nat) (st : List Word) (m : Memory) (len : Nat) :
      Reports s .noFault (complete n st (s.withMemory m len))
  | outsideMemory : Reports s .noFault (.fault .outsideMemory)

theorem Reports.eq_faulted {s : State} {k : FaultKind} {r : Result} (h : Reports s k r) (hk : k ≠ .noFault) :
    r = .next (faulted k 0 s) := by
  cases h with
  | fault => rfl
  | complete => exact absurd rfl hk
  | outsideMemory => exact absurd rfl hk

theorem Reports.faultKind_eq {s t : State} {k : FaultKind} (h : Reports s k (.next t)) (hs : s.faultKind = .noFault) :
    t.faultKind = k := by
  cases h with
  | fault => rfl
  | complete => exact hs

theorem reports_underflow {i : Instr} {s : State} (h : s.sp < minDepth i) :
    Reports s (firstFault i s) (takeFault .stackUnderflow s) := by
  rw [(firstFault_eq_stackUnderflow_iff i s).mpr h]
  exact .fault _

theorem reports_complete {i : Instr} {s : State} (hpos : 0 < minDepth i) (hacc : accessBytes i = 0)
    (hd : minDepth i ≤ s.sp) (st : List Word) : Reports s (firstFault i s) (complete 0 st s) := by
  rw [firstFault_eq_noFault hpos hd fun hm => Nat.ne_of_gt hm.1 hacc]
  exact .complete 0 st s.mem s.memLen

theorem unary_reports {i : Instr} (hd : minDepth i = 1) (hacc : accessBytes i = 0) (f : Word → Word) (s : State) :
    Reports s (firstFault i s) (unary f s) := by
  rcases unary_cases f s with ⟨hlt, h⟩ | ⟨a, st, hst, h⟩ <;> rw [h]
  · exact reports_underflow (hd ▸ hlt)
  · exact reports_complete (by omega) hacc (by simp [hd, State.sp, hst]) _

theorem binary_reports {i : Instr} (hd : minDepth i = 2) (hacc : accessBytes i = 0) (f : Word → Word → Word)
    (s : State) : Reports s (firstFault i s) (binary f s) := by
  rcases binary_cases f s with ⟨hlt, h⟩ | ⟨a, b, st, hst, h⟩ <;> rw [h]
  · exact reports_underflow (hd ▸ hlt)
  · exact reports_complete (by omega) hacc (by simp [hd, State.sp, hst]) _

theorem ternary_reports {i : Instr} (hd : minDepth i = 3) (hacc : accessBytes i = 0)
    (f : Word → Word → Word → Word) (s : State) : Reports s (firstFault i s) (ternary f s) := by
  rcases ternary_cases f s with ⟨hlt, h⟩ | ⟨a, b, c, st, hst, h⟩ <;> rw [h]
  · exact reports_underflow (hd ▸ hlt)
  · exact reports_complete (by omega) hacc (by simp [hd, State.sp, hst]) _

theorem pushWord_reports {i : Instr} {s : State} (hd : minDepth i = 0) (ht : ¬Truncated i s) (n : Nat) (v : Word) :
    Reports s (firstFault i s) (pushWord n v s) := by
  rw [firstFault_of_minDepth_eq_zero hd, if_neg ht]
  rcases pushWord_cases n v s with ⟨hr, h⟩ | ⟨hr, h⟩ <;> rw [h, hr]
  · exact .fault _
  · exact .complete n _ s.mem s.memLen

theorem pushImm_reports {i : Instr} (hd : minDepth i = 0) (hpos : 0 < immBytes i) (v : Word) (s : State) :
    Reports s (firstFault i s) (pushImm (immBytes i) v s) := by
  rcases pushImm_cases (immBytes i) v s with ⟨ht, h⟩ | ⟨ht, h⟩ <;> rw [h]
  · rw [firstFault, if_pos ⟨hpos, ht⟩]
    exact .fault _
  · exact pushWord_reports hd (fun htr => ht htr.2) _ v

/-- The end that `storeBytes_cases` and `loadBytes_cases` share: with enough words, the growth decides. -/
theorem access_reports {i : Instr} {s : State} {a : Word} {st : List Word} {r : Result} (hacc : 0 < accessBytes i)
    (hst : s.stack = a :: st) (hd : minDepth i ≤ s.sp)
    (h : (memGrow a.toNat (accessBytes i) s = none ∧ r = takeFault .memoryLimit s) ∨
      ∃ t, memGrow a.toNat (accessBytes i) s = some t ∧
        ((∃ st m len, r = complete 0 st (t.withMemory m len)) ∨ r = .fault .outsideMemory)) :
    Reports s (firstFault i s) r := by
  have hbeyond := beyondMemCap_iff_memGrow hacc hst
  rcases h with ⟨hg, rfl⟩ | ⟨t, hg, hends⟩
  · rw [(firstFault_eq_memoryLimit_iff i s).mpr ⟨hd, hbeyond.mpr hg⟩]
    exact .fault _
  · rw [firstFault_eq_noFault (minDepth_pos_of_accessBytes_pos hacc) hd (by simp [hbeyond, hg])]
    obtain ⟨m, len, rfl, -⟩ := memGrow_kept hg
    rcases hends with ⟨st, m, len, rfl⟩ | rfl
    · exact .complete 0 st m len
    · exact .outsideMemory

theorem storeBytes_reports {i : Instr} (hd : minDepth i = 2) (hacc : 0 < accessBytes i) (s : State) :
    Reports s (firstFault i s) (storeBytes (accessBytes i) s) := by
  rcases storeBytes_cases (accessBytes i) s with ⟨hlt, h⟩ | ⟨a, b, st, hst, h⟩
  · rw [h]
    exact reports_underflow (hd ▸ hlt)
  · exact access_reports hacc hst (by simp [hd, State.sp, hst])
      (h.imp_right fun ⟨t, hg, hends⟩ => ⟨t, hg, hends.imp (fun hdone => ⟨st, _, _, hdone.2⟩) And.right⟩)

theorem loadBytes_reports {i : Instr} (hd : minDepth i = 1) (hacc : 0 < accessBytes i) (s : State) :
    Reports s (firstFault i s) (loadBytes (accessBytes i) s) := by
  rcases loadBytes_cases (accessBytes i) s with ⟨hlt, h⟩ | ⟨a, st, hst, h⟩
  · rw [h]
    exact reports_underflow (hd ▸ hlt)
  · exact access_reports hacc hst (by simp [hd, State.sp, hst])
      (h.imp_right fun ⟨t, hg, hends⟩ => ⟨t, hg, hends.imp (fun hdone => ⟨_, t.mem, t.memLen, hdone.2⟩) And.right⟩)

/-- Every instruction reports the first cause of R208 that applies. -/
theorem exec_reports (i : Instr) (s : State) : Reports s (firstFault i s) (exec i s) := by
  cases i with
  | iszero | not => exact unary_reports rfl rfl _ s
  | add | mul | sub | div | sdiv | mod | smod | exp | signextend => exact binary_reports rfl rfl _ s
  | lt | gt | slt | sgt | eq | and | or | xor | byte | shl | shr | sar => exact binary_reports rfl rfl _ s
  | addmod | mulmod => exact ternary_reports rfl rfl _ s
  | mload => exact loadBytes_reports rfl (by decide) s
  | mstore | mstore8 => exact storeBytes_reports rfl (by decide) s
  | msize | push0 => exact pushWord_reports rfl (not_truncated_of_immBytes_eq_zero rfl) 0 _
  | _ v => exact pushImm_reports rfl (by exact Nat.succ_pos _) v s

theorem exec_eq_faulted {i : Instr} {s : State} {k : FaultKind} (h : firstFault i s = k) (hk : k ≠ .noFault) :
    exec i s = .next (faulted k 0 s) := (h ▸ exec_reports i s).eq_faulted hk

theorem faultKind_eq_firstFault {i : Instr} {s t : State} (hs : s.faultKind = .noFault) (h : exec i s = .next t) :
    t.faultKind = firstFault i s := (h ▸ exec_reports i s).faultKind_eq hs

end Sys2Proof.Machine
end

section
/-! What a sound state gives, and from the first fault the exact cause of each fault, their order, and what a fault
leaves (60_exceptions.md R202, R204, R205, R207, R208). -/

namespace Sys2Proof.Machine

open Sys2Proof.Claims

/-! ### What a sound state gives -/

theorem sound_iff (s : State) : s.sound = true ↔
    configValid s.cfg = true ∧ storesFit s = true ∧ memorySound s = true ∧ phaseSound s = true := by
  simp [State.sound, and_assoc]

/-- R26: no fault is recorded while the engine runs. -/
theorem faultKind_of_sound_running {s : State} (hs : s.sound = true) (hrun : s.status = .running) :
    s.faultKind = .noFault := by
  obtain ⟨-, -, -, hphase⟩ := (sound_iff s).mp hs
  simp only [phaseSound, hrun, noFaultRecord, Bool.and_eq_true, decide_eq_true_eq] at hphase
  obtain ⟨⟨⟨⟨hkind, -⟩, -⟩, -⟩, -⟩ := hphase
  exact hkind

theorem growthUnit_pos_of_configValid {c : Config} (h : configValid c = true) : 0 < c.growthUnit := by
  simp only [configValid, Bool.and_eq_true, decide_eq_true_eq] at h
  obtain ⟨⟨⟨-, hunit⟩, -⟩, -⟩ := h
  exact hunit

/-- R24: as SP is never above `STACK_CAP`, room is lacking only where they are equal. -/
theorem hasRoom_eq_false_iff {s : State} (h : within s.sp s.cfg.stackCap = true) :
    s.hasRoom = false ↔ s.cfg.stackCap = some s.stack.length := by
  rw [← Bool.not_eq_true, hasRoom_eq_true_iff, HasRoom]
  cases hcap : s.cfg.stackCap with
  | none => simp
  | some c =>
    have hle : s.stack.length ≤ c := (within_iff _ _).mp h c hcap
    simp only [Option.some.injEq, forall_eq']
    omega

/-- Rounding up to a multiple of the unit does not pass a length that is one. -/
theorem growTarget_le {unit len a n : Nat} (hu : 0 < unit) (hlen : len % unit = 0) (h : a + n ≤ len) :
    growTarget unit a n ≤ len := by
  obtain ⟨q, rfl⟩ := Nat.dvd_of_mod_eq_zero hlen
  have hq : (a + n + unit - 1) / unit < q + 1 := by
    rw [Nat.div_lt_iff_lt_mul hu, Nat.add_one_mul, Nat.mul_comm]
    omega
  rw [growTarget, Nat.mul_comm]
  exact Nat.mul_le_mul_left unit (Nat.lt_succ_iff.mp hq)

/-- An access wholly inside a sound Memory asks for no growth. -/
theorem lengthAfter_eq_memLen {s : State} {a n : Nat} (hu : 0 < s.cfg.growthUnit) (hs : memorySound s = true)
    (h : a + n ≤ s.memLen) : lengthAfter s a n = s.memLen := by
  obtain ⟨-, -, hmod, -⟩ := (memorySound_iff s).mp hs
  exact Nat.max_eq_left (growTarget_le hu hmod h)

/-! ### The causes of R202, R204 and R205 -/

/-- Settles O43: a lack of words is the first cause wherever it applies. -/
theorem underflowExactly : Obligations.UnderflowExactly := by
  intro i s hs
  have hunder := firstFault_eq_stackUnderflow_iff i s
  refine ⟨fun hlt => exec_eq_faulted (hunder.mpr hlt) (by decide), fun t ht hk => hunder.mp ?_⟩
  rwa [faultKind_eq_firstFault hs ht] at hk

/-- Settles O44: no immediate is truncated, and a sound stack lacks room only at its capacity. -/
theorem overflowExactly : Obligations.OverflowExactly := by
  intro i s t hs hrun hin ht
  obtain ⟨-, hfit, -, -⟩ := (sound_iff s).mp hs
  obtain ⟨-, hsp⟩ := Bool.and_eq_true_iff.mp hfit
  have hnt : ¬Truncated i s := fun htr => absurd htr.2.1 (Nat.not_lt.mpr hin)
  rw [faultKind_eq_firstFault (faultKind_of_sound_running hs hrun) ht, firstFault_eq_stackOverflow_iff,
    hasRoom_eq_false_iff hsp, and_iff_right hnt]

theorem accessBytes_of_access {i : Instr} {n : Nat}
    (h : i = .mstore ∧ n = 32 ∨ i = .mstore8 ∧ n = 1 ∨ i = .mload ∧ n = 32) :
    accessBytes i = n ∧ 0 < accessBytes i := by
  rcases h with ⟨rfl, rfl⟩ | ⟨rfl, rfl⟩ | ⟨rfl, rfl⟩ <;> decide

theorem accessBytes_eq_zero {i : Instr} (h1 : i ≠ .mstore) (h2 : i ≠ .mstore8) (h3 : i ≠ .mload) :
    accessBytes i = 0 := by
  cases i with
  | mstore => exact absurd rfl h1
  | mstore8 => exact absurd rfl h2
  | mload => exact absurd rfl h3
  | _ => rfl

/-- `BeyondMemCap` in the words of the statements. -/
theorem beyondMemCap_iff {i : Instr} {s : State} {a : Word} {st : List Word} (hacc : 0 < accessBytes i)
    (hst : s.stack = a :: st) :
    BeyondMemCap i s ↔ ¬LengthFits s (lengthAfter s a.toNat (accessBytes i)) := by
  rw [BeyondMemCap, hst, List.headD_cons, and_iff_right hacc, ← Bool.not_eq_true, within_iff]
  rfl

theorem not_lengthFits_iff (s : State) (len : Nat) :
    ¬LengthFits s len ↔ ∃ c, s.cfg.memCap = some c ∧ c < len := by
  simp [LengthFits]

/-- Settles O45: with enough words the only cause left to an access is a length above `MEM_CAP`, and the length of a
sound Memory is not above it. -/
theorem insideAccessNeverLimited : Obligations.InsideAccessNeverLimited := by
  refine ⟨fun i n s t a st hi hs hrun hst hd ht => ?_, fun i s t h1 h2 h3 hs ht hk => ?_⟩
  · obtain ⟨rfl, hacc⟩ := accessBytes_of_access hi
    have hbeyond := beyondMemCap_iff hacc hst
    rw [faultKind_eq_firstFault (faultKind_of_sound_running hs hrun) ht]
    refine ⟨?_, fun hin => firstFault_eq_noFault (minDepth_pos_of_accessBytes_pos hacc) hd ?_⟩
    · rw [firstFault_eq_memoryLimit_iff, and_iff_right (show minDepth i ≤ s.sp from hd), hbeyond, not_lengthFits_iff]
    · obtain ⟨hcfg, -, hmem, -⟩ := (sound_iff s).mp hs
      obtain ⟨-, -, -, hcap⟩ := (memorySound_iff s).mp hmem
      rw [hbeyond, lengthAfter_eq_memLen (growthUnit_pos_of_configValid hcfg) hmem hin, not_not]
      exact (within_iff _ _).mp hcap
  · rw [faultKind_eq_firstFault hs ht, firstFault_eq_memoryLimit_iff] at hk
    obtain ⟨-, hacc, -⟩ := hk
    exact Nat.ne_of_gt hacc (accessBytes_eq_zero h1 h2 h3)

/-! ### The order of R208 -/

/-- Settles O47: an invalid byte is no instruction; of the others, each clause makes its cause the first. -/
theorem faultPriority : Obligations.FaultPriority := by
  refine ⟨fun s b => step_of_invalid_byte, fun i s hpos hlt hend => ?_, fun i s hlt => ?_, fun i s hd hr hin => ?_,
    fun i n s a st hi hst hd hfit => ?_⟩
  · exact exec_eq_faulted (if_pos ⟨hpos, hlt, hend⟩) (by decide)
  · exact exec_eq_faulted ((firstFault_eq_stackUnderflow_iff i s).mpr hlt) (by decide)
  · have hnt : ¬Truncated i s := by
      rcases hin with h0 | hin
      · exact not_truncated_of_immBytes_eq_zero h0
      · exact fun htr => not_truncated hin htr.2
    have hroom : s.hasRoom = false := Bool.eq_false_iff.mpr (mt (hasRoom_eq_true_iff s).mp hr)
    exact exec_eq_faulted ((firstFault_eq_stackOverflow_iff i s).mpr ⟨hd, hnt, hroom⟩) (by decide)
  · obtain ⟨rfl, hacc⟩ := accessBytes_of_access hi
    exact exec_eq_faulted ((firstFault_eq_memoryLimit_iff i s).mpr ⟨hd, (beyondMemCap_iff hacc hst).mpr hfit⟩)
      (by decide)

/-! ### What a fault leaves -/

/-- An instruction that ends in `FAULT` has raised a fault, and never `InvalidOpcode`. -/
theorem exec_eq_faulted_of_status {i : Instr} {s t : State} (hs : s.status ≠ .fault) (h : exec i s = .next t)
    (ht : t.status = .fault) : ∃ k, k ≠ .noFault ∧ k ≠ .invalidOpcode ∧ t = faulted k 0 s := by
  rcases exec_ends i s with ⟨k, hk, hinv, hfault⟩ | ⟨st, m, len, hdone, -, -⟩ | ⟨-, hout⟩
  · exact ⟨k, hk, hinv, Host.Outcome.next.inj (h.symm.trans hfault)⟩
  · obtain rfl := Host.Outcome.next.inj (h.symm.trans hdone)
    exact absurd ht hs
  · simp [hout] at h

/-- Settles O46: the byte at the pc is invalid or an instruction, and in `FAULT` the engine takes no step. -/
theorem faultIsPrecise : Obligations.FaultIsPrecise := by
  intro s t hrun hstep ht
  have hstays (n : Nat) : core.run n t = .next t :=
    run_eq_self_of_step_eq_self (M := core) (step_eq_self_of_ne_running (by simp [ht])) n
  rcases Nat.lt_or_ge s.pc s.code.length with hlt | hend
  · have hb : s.code[s.pc]? = some s.code[s.pc] := List.getElem?_eq_getElem hlt
    cases ho : opOfByte s.code[s.pc] s.cfg.opcodeMap with
    | none =>
      have hfault := Host.Outcome.next.inj (hstep.symm.trans (step_of_invalid_byte hrun hb ho))
      exact ⟨.invalidOpcode, _, hfault, by decide, hlt, fun _ => hb, fun h => absurd rfl h, hstays⟩
    | some o =>
      rw [step_of_fetch_eq_instr hrun (fetch_eq_instr hb ho)] at hstep
      obtain ⟨k, hk, hinv, hfault⟩ := exec_eq_faulted_of_status (by simp [hrun]) hstep ht
      exact ⟨k, 0, hfault, hk, hlt, fun h => absurd h hinv, fun _ => rfl, hstays⟩
  · obtain rfl := Host.Outcome.next.inj (hstep.symm.trans (step_eq_done hrun hend))
    cases ht

end Sys2Proof.Machine
end

section
/-! The moves between the phases, by steps and by host operations, and what `RESET` leaves (70_reset_and_hazards.md
R230, R231, R233). -/

namespace Sys2Proof.Machine

open Sys2Proof.Claims

/-! ### By steps -/

/-- What a step of the running engine can lead to: the end of the run at the end of Code; before it, a completed
instruction or a fault. -/
theorem step_next_cases {s t : State} (hrun : s.status = .running) (h : step s = .next t) :
    (s.code.length ≤ s.pc ∧ t.status = .done) ∨
      (s.pc < s.code.length ∧ (t.status = .running ∨ ∃ k info, k ≠ .noFault ∧ t = faulted k info s)) := by
  rcases step_cases s with ⟨hne, -⟩ | ⟨-, hend, hdone⟩ | ⟨-, hlt, b, hinv⟩ | ⟨-, hlt, i, -, hexec⟩
  · exact absurd hrun hne
  · obtain rfl := Host.Outcome.next.inj (h.symm.trans hdone)
    exact .inl ⟨hend, rfl⟩
  · exact .inr ⟨hlt, .inr ⟨.invalidOpcode, b, by decide, Host.Outcome.next.inj (h.symm.trans hinv)⟩⟩
  · refine .inr ⟨hlt, ?_⟩
    rcases exec_next_cases (hexec.symm.trans h) with ⟨hstatus, -⟩ | ⟨k, hk, hfault⟩
    · exact .inl (hstatus.trans hrun)
    · exact .inr ⟨k, 0, hk, hfault⟩

/-! ### By host operations -/

theorem hostStart_of_loaded {s : State} (hidle : s.status = .idle) (hloaded : s.codeLoaded = true) :
    hostStart s = ({ s with status := .running }, .accepted) := if_pos ⟨hidle, hloaded⟩

theorem hostStart_of_not_allowed {s : State} (h : ¬(s.status = .idle ∧ s.codeLoaded = true)) :
    hostStart s = (s, .refused) := if_neg h

/-- R231: `LOAD_CODE`, accepted or refused, is no move between phases. -/
theorem hostLoadCode_status (bytes : List Byte) (s : State) : (hostLoadCode bytes s).1.status = s.status := by
  unfold hostLoadCode
  split_ifs <;> rfl

/-- Settles O8: the step by what it can lead to, the host operations one by one. -/
theorem phaseMoves : Obligations.PhaseMoves := by
  refine ⟨fun s => step_eq_self_of_ne_running, fun s t hrun hstep => ?_, fun s => rfl, fun s hidle hloaded => ?_,
    fun s o hreset hstart => ?_⟩
  · rcases step_next_cases hrun hstep with ⟨hend, hdone⟩ | ⟨hlt, hrunning | ⟨k, info, hk, rfl⟩⟩
    · simp [hdone, hend]
    · simp [hrunning, hlt]
    · exact ⟨iff_of_false nofun (Nat.not_le.mpr hlt), nofun, fun _ => ⟨k, info, hk, rfl⟩⟩
  · rw [hostOp, hostStart_of_loaded hidle hloaded]
  · cases o with
    | reset => exact absurd rfl hreset
    | loadCode bytes => exact hostLoadCode_status bytes s
    | start => rw [hostOp, hostStart_of_not_allowed fun h => hstart ⟨rfl, h⟩]
    | readStatus | readStack i | readMem i => rfl

/-! ### What `RESET` leaves -/

/-- A growth of an empty Memory reads as zero everywhere. -/
theorem memGrow_get_of_mem_nil {s t : State} {a n : Nat} (hm : s.mem = []) (h : memGrow a n s = some t) (x : Nat) :
    t.mem.get x = 0 := by
  have hzero : s.mem.get x = 0 := by rw [hm]; rfl
  rw [memGrow_get h, hzero, ite_self]

/-- Settles O58: the reset values are those of R35, and a growth from them appends zeros only. -/
theorem resetClearsTheRun : Obligations.ResetClearsTheRun := fun s =>
  ⟨rfl, atReset_hostReset s, rfl, fun _a _n _t hgrow => memGrow_get_of_mem_nil (s := hostReset s) rfl hgrow⟩

end Sys2Proof.Machine
end

section
/-! The decoder and the encoder are inverse to each other, the default opcode map byte by byte, and the step as exec of
what is decoded (30_encoding.md R83 to R90, 40_dispatch_and_push.md R101). -/

namespace Sys2Proof

open Sys2Proof.Machine Sys2Proof.Claims

/-! ### Round trips, for every opcode map -/

theorem encode_eq_some_iff {m : OpcodeMap} {i : Instr} {bytes : List Byte} :
    encode m i = some bytes ↔ ∃ b, byteOfOp i.op m = some b ∧ b :: bytesBe i.imm.toNat i.immSize = bytes := by
  cases hb : byteOfOp i.op m with
  | none => simp [encode, hb]
  | some b => simp [encode, hb]

/-- R83: the decoder reads back the immediate of a well-formed instruction, and no byte of what follows it. -/
theorem be_takePad_immBytes {i : Instr} (hwf : i.wellFormed = true) (tail : List Byte) :
    be (takePad i.immSize (bytesBe i.imm.toNat i.immSize ++ tail)) = i.imm.toNat := by
  have htake := takePad_append (bytesBe i.imm.toNat i.immSize) tail
  rw [length_bytesBe] at htake
  rw [htake, be_bytesBe_of_lt (i.wellFormed_iff.mp hwf)]

/-- Settles O2: the byte selects the operation, as it has no other row, and the immediate is read back. -/
theorem decodeOfEncode : Obligations.DecodeOfEncode := by
  intro m i bytes tail hm hwf henc
  obtain ⟨b, hb, rfl⟩ := encode_eq_some_iff.mp henc
  have ho : opOfByte b m = some i.op := opOfByte_of_mem hm (byteOfOp_mem hb)
  have himm := be_takePad_immBytes hwf tail
  rw [Instr.immSize] at himm
  simp only [List.cons_append, decode_cons, ho, Instr.immSize, himm, BitVec.ofNat_toNat, BitVec.setWidth_eq,
    Instr.op_instr]

/-- The immediate of a decoded instruction is the number its bytes spell; with no immediate bytes both are 0. -/
theorem instr_takePad_imm_toNat (o : Op) (bs : List Byte) :
    (o.instr (BitVec.ofNat 256 (be (takePad o.immSize bs)))).imm.toNat = be (takePad o.immSize bs) := by
  rw [Op.instr_imm]
  split
  case isTrue h => rw [h]; rfl
  case isFalse => rw [BitVec.toNat_ofNat, Nat.mod_eq_of_lt ((be_takePad_lt o bs).trans_le (pow_immSize_le o))]

/-- Settles O3: the byte of the operation is the one it was selected by, and the bytes of the immediate are those it was
read from. -/
theorem encodeOfDecode : Obligations.EncodeOfDecode := by
  intro m bytes i hm hdec hlen
  refine ⟨decode_wellFormed hdec, encode_eq_some_iff.mpr ?_⟩
  obtain ⟨b, tail, rfl, ho, hi⟩ := decode_eq_instr hdec
  have hmap := Bool.and_eq_true_iff.mp hm
  refine ⟨b, byteOfOp_of_mem (of_decide_eq_true hmap.2) (opOfByte_mem ho), ?_⟩
  have himm : i.imm.toNat = be (takePad i.immSize tail) := by
    have h := instr_takePad_imm_toNat i.op tail
    rwa [← Instr.immSize, ← hi] at h
  have hbytes := bytesBe_be (takePad i.immSize tail)
  rw [length_takePad] at hbytes
  rw [immBytes_eq_immSize, List.length_cons] at hlen
  rw [himm, hbytes, takePad_eq_take (by omega), immBytes_eq_immSize, Nat.add_comm, List.take_succ_cons]

/-! ### The default opcode map -/

/-- Settles O1, by decoding the six. -/
theorem specWordsDecode : Obligations.SpecWordsDecode := ⟨rfl, rfl, rfl, rfl, rfl, rfl⟩

theorem byteOfOp_default (i : Instr) : byteOfOp i.op defaultOpcodeMap = some (opcodeByte i) := by cases i <;> rfl

/-- A byte is invalid exactly when it stands in no row. -/
theorem opOfByte_eq_none_iff (b : Byte) (m : OpcodeMap) : opOfByte b m = none ↔ b ∉ m.map (·.1) := by
  induction m with
  | nil => simp [opOfByte]
  | cons row m ih =>
    rw [opOfByte, List.map_cons, List.mem_cons, not_or, ← ih]
    split
    case isTrue h => simp [h]
    case isFalse h => simp [Ne.symm h]

/-- R87: the gaps between the rows of R85. -/
theorem notMem_defaultOpcodeMap_iff : ∀ b : Byte, b ∉ defaultOpcodeMap.map (·.1) ↔ NoOpcode b := by
  unfold NoOpcode
  decide

/-- Settles O4: the row of each operation, and the gaps between the rows. -/
theorem opcodeBytesOfTable : Obligations.OpcodeBytesOfTable := by
  refine ⟨fun i => ?_, fun b => (opOfByte_eq_none_iff b _).trans (notMem_defaultOpcodeMap_iff b)⟩
  exact encode_eq_some_iff.mpr ⟨_, byteOfOp_default i, by rw [immBytes_eq_immSize]⟩

/-! ### The step -/

/-- Settles O5: what is fetched is what the bytes at the pc decode to. -/
theorem stepRunsDecoded : Obligations.StepRunsDecoded := fun _ _ hrun hdec =>
  ⟨decode_wellFormed hdec, step_of_fetch_eq_instr hrun hdec⟩

end Sys2Proof
end

section
/-! The invariant: every step and every host operation keeps a sound state sound, and every run ends (10_state.md
sections 2 to 5, 60_exceptions.md R207, 70_reset_and_hazards.md R230, R231, R233, R237). -/

namespace Sys2Proof.Machine

open Sys2Proof.Claims

/-! ### What each phase asks -/

theorem noFaultRecord_iff (s : State) :
    noFaultRecord s = true ↔ s.faultKind = .noFault ∧ s.faultPc = 0 ∧ s.faultInfo = 0 := by
  simp [noFaultRecord, and_assoc]

theorem phaseSound_idle_iff {s : State} (h : s.status = .idle) :
    phaseSound s = true ↔ noFaultRecord s = true ∧ s.pc = 0 ∧ s.stack = [] ∧ s.memLen = 0 := by
  simp [phaseSound, h, and_assoc]

theorem phaseSound_running_iff {s : State} (h : s.status = .running) :
    phaseSound s = true ↔ noFaultRecord s = true ∧ s.codeLoaded = true ∧ s.pc ≤ s.codeLen + 32 := by
  simp [phaseSound, h, and_assoc]

theorem phaseSound_done_iff {s : State} (h : s.status = .done) :
    phaseSound s = true ↔
      noFaultRecord s = true ∧ s.codeLoaded = true ∧ s.codeLen ≤ s.pc ∧ s.pc ≤ s.codeLen + 32 := by
  simp [phaseSound, h, and_assoc]

theorem phaseSound_fault_iff {s : State} (h : s.status = .fault) :
    phaseSound s = true ↔ s.codeLoaded = true ∧ s.faultKind ≠ .noFault ∧ s.faultPc < s.codeLen ∧
      s.pc = s.faultPc + 1 ∧ (s.faultKind = .invalidOpcode ∨ s.faultInfo = 0) := by
  simp [phaseSound, h, and_assoc]

theorem storesFit_iff (s : State) :
    storesFit s = true ↔ within s.codeLen s.cfg.codeCap = true ∧ within s.sp s.cfg.stackCap = true := by
  simp [storesFit]

/-! ### The four things a running engine does -/

section Running

variable {s : State} (hs : s.sound = true) (hrun : s.status = .running)
include hs hrun

/-- R100: the run ends where the pc has reached the end of Code. -/
theorem sound_done (hpc : s.codeLen ≤ s.pc) : State.sound { s with status := .done } = true := by
  obtain ⟨hcfg, hfit, hmem, hphase⟩ := (sound_iff s).mp hs
  obtain ⟨hrec, hloaded, hle⟩ := (phaseSound_running_iff hrun).mp hphase
  exact (sound_iff _).mpr ⟨hcfg, hfit, hmem, (phaseSound_done_iff rfl).mpr ⟨hrec, hloaded, hpc, hle⟩⟩

/-- R207: a fault records its cause, and the index of the opcode byte, which is inside Code. -/
theorem sound_raise {k : FaultKind} {info : Byte} (hpc : s.pc < s.codeLen) (hk : k ≠ .noFault)
    (hinfo : k = .invalidOpcode ∨ info = 0) : (raise k info s).sound = true := by
  obtain ⟨hcfg, hfit, hmem, hphase⟩ := (sound_iff s).mp hs
  obtain ⟨-, hloaded, -⟩ := (phaseSound_running_iff hrun).mp hphase
  exact (sound_iff _).mpr ⟨hcfg, hfit, hmem, (phaseSound_fault_iff rfl).mpr ⟨hloaded, hk, hpc, rfl, hinfo⟩⟩

/-- An instruction that starts inside Code leaves the pc at most 32 bytes past its end, and no stack above
`STACK_CAP`. -/
theorem sound_complete {n len : Nat} {st : List Word} {m : Memory} (hpc : s.pc < s.codeLen) (hn : n ≤ 32)
    (hst : StackKept s st) (hm : MemoryKept s m len) :
    (((s.withMemory m len).withStack st).advance (1 + n)).sound = true := by
  obtain ⟨hcfg, hfit, hmem, hphase⟩ := (sound_iff s).mp hs
  obtain ⟨hrec, hloaded, -⟩ := (phaseSound_running_iff hrun).mp hphase
  obtain ⟨hcode, hsp⟩ := (storesFit_iff s).mp hfit
  have hdepth : within st.length s.cfg.stackCap = true := by
    rcases hst with hle | ⟨heq, hroom⟩
    · exact (within_iff _ _).mpr fun c hc => hle.trans ((within_iff _ _).mp hsp c hc)
    · rwa [heq]
  refine (sound_iff _).mpr ⟨hcfg, (storesFit_iff _).mpr ⟨hcode, hdepth⟩, hm.2 hmem, ?_⟩
  refine (phaseSound_running_iff (s := ((s.withMemory m len).withStack st).advance (1 + n)) hrun).mpr
    ⟨hrec, hloaded, ?_⟩
  simp only [advance_pc, advance_codeLen, withStack_pc, withStack_codeLen, withMemory_pc, withMemory_codeLen]
  omega

theorem exec_sound {i : Instr} (hpc : s.pc < s.codeLen) : ∃ t, exec i s = .next t ∧ t.sound = true := by
  rcases exec_ends i s with ⟨k, hk, -, hfault⟩ | ⟨st, m, len, hdone, hst, hm⟩ | ⟨hunit, -⟩
  · exact ⟨_, hfault, sound_raise hs hrun hpc hk (.inr rfl)⟩
  · exact ⟨_, hdone, sound_complete hs hrun hpc i.op.immSize_le hst hm⟩
  · obtain ⟨hcfg, -⟩ := (sound_iff s).mp hs
    exact absurd hunit (Nat.ne_of_gt (growthUnit_pos_of_configValid hcfg))

end Running

/-- Settles O48: outside `RUNNING` nothing changes; in it, each of the things a step can do keeps the invariant. -/
theorem soundStepAnswersSound : Obligations.SoundStepAnswersSound := by
  intro s hs
  rcases step_cases s with ⟨-, hstep⟩ | ⟨hrun, hpc, hstep⟩ | ⟨hrun, hpc, b, hstep⟩ | ⟨hrun, hpc, i, -, hstep⟩
  · exact ⟨s, hstep, hs⟩
  · exact ⟨_, hstep, sound_done hs hrun hpc⟩
  · exact ⟨_, hstep, sound_raise hs hrun hpc (by decide) (.inl rfl)⟩
  · rw [hstep]
    exact exec_sound hs hrun hpc

/-! ### The host -/

/-- Settles O49, by evaluating the state after reset. -/
theorem resetIsSound : Obligations.ResetIsSound := ⟨by decide, rfl, rfl, rfl, rfl, rfl, rfl, rfl, rfl⟩

theorem within_zero (cap : Option Nat) : within 0 cap = true := (within_iff _ _).mpr fun _ _ => Nat.zero_le _

/-- R22: what the code store holds where it is unspecified is no longer than `CODE_CAP`. -/
theorem unspecifiedCode_within (cfg : Config) (k : Nat) :
    within (unspecifiedCode cfg k).length cfg.codeCap = true := by
  refine (within_iff _ _).mpr fun c hc => ?_
  rw [unspecifiedCode, hc]
  exact List.length_take_le c _

theorem hostReset_sound {s : State} (hcfg : configValid s.cfg = true) : (hostReset s).sound = true := by
  refine (sound_iff _).mpr ⟨hcfg, (storesFit_iff _).mpr ⟨unspecifiedCode_within _ _, within_zero _⟩, ?_, ?_⟩
  · exact (memorySound_iff _).mpr ⟨rfl, rfl, Nat.zero_mod _, within_zero _⟩
  · exact (phaseSound_idle_iff rfl).mpr ⟨rfl, rfl, rfl, rfl⟩

/-- In `IDLE` the code store may be given any contents within `CODE_CAP`. -/
theorem sound_of_idle_code {s : State} (hs : s.sound = true) (hidle : s.status = .idle) {code : List Byte}
    (hcode : within code.length s.cfg.codeCap = true) (loaded : Bool) (count : Nat) :
    State.sound { s with code := code, codeLoaded := loaded, freeCount := count } = true := by
  obtain ⟨hcfg, hfit, hmem, hphase⟩ := (sound_iff s).mp hs
  obtain ⟨-, hsp⟩ := (storesFit_iff s).mp hfit
  refine (sound_iff _).mpr ⟨hcfg, (storesFit_iff _).mpr ⟨hcode, hsp⟩, hmem, ?_⟩
  exact (phaseSound_idle_iff (s := { s with code := code, codeLoaded := loaded, freeCount := count }) hidle).mpr
    ((phaseSound_idle_iff hidle).mp hphase)

theorem hostLoadCode_sound {s : State} (hs : s.sound = true) (bytes : List Byte) :
    (hostLoadCode bytes s).1.sound = true := by
  unfold hostLoadCode
  split_ifs with hidle hfit
  · exact sound_of_idle_code hs hidle hfit _ _
  · exact sound_of_idle_code hs hidle (unspecifiedCode_within _ _) _ _
  · exact hs

theorem hostStart_sound {s : State} (hs : s.sound = true) : (hostStart s).1.sound = true := by
  unfold hostStart
  split_ifs with h
  · obtain ⟨hidle, hloaded⟩ := h
    obtain ⟨hcfg, hfit, hmem, hphase⟩ := (sound_iff s).mp hs
    obtain ⟨hrec, hpc, -⟩ := (phaseSound_idle_iff hidle).mp hphase
    refine (sound_iff _).mpr ⟨hcfg, hfit, hmem, (phaseSound_running_iff rfl).mpr ⟨hrec, hloaded, ?_⟩⟩
    exact hpc.trans_le (Nat.zero_le _)
  · exact hs

theorem hostOp_cfg (o : HostOp) (s : State) : (hostOp o s).1.cfg = s.cfg := by
  cases o with
  | loadCode bytes =>
    rw [hostOp, hostLoadCode]
    split_ifs <;> rfl
  | start =>
    rw [hostOp, hostStart]
    split_ifs <;> rfl
  | reset | readStatus | readStack i | readMem i => rfl

/-- Settles O50: the reads leave the state as it is, and each other operation keeps the invariant. -/
theorem hostOpsKeepSound : Obligations.HostOpsKeepSound := by
  intro s o hs
  refine ⟨?_, hostOp_cfg o s⟩
  cases o with
  | reset => exact hostReset_sound ((sound_iff s).mp hs).1
  | loadCode bytes => exact hostLoadCode_sound hs bytes
  | start => exact hostStart_sound hs
  | readStatus | readStack i | readMem i => exact hs

/-! ### What no step changes, and the end of every run -/

theorem exec_keepsCodeAndLength {i : Instr} {s t : State} (h : exec i s = .next t) :
    t.code = s.code ∧ t.cfg = s.cfg ∧ t.codeLoaded = s.codeLoaded ∧ t.freeCount = s.freeCount ∧
      s.memLen ≤ t.memLen := by
  rcases exec_ends i s with ⟨k, -, -, hfault⟩ | ⟨st, m, len, hdone, -, hle, -⟩ | ⟨-, hout⟩
  · obtain rfl := Host.Outcome.next.inj (h.symm.trans hfault)
    exact ⟨rfl, rfl, rfl, rfl, le_rfl⟩
  · obtain rfl := Host.Outcome.next.inj (h.symm.trans hdone)
    exact ⟨rfl, rfl, rfl, rfl, hle⟩
  · simp [hout] at h

/-- Settles O52: of what a step can do only an instruction reaches Memory, and it never shortens it. -/
theorem stepKeepsCodeAndLength : Obligations.StepKeepsCodeAndLength := by
  intro s t ht
  rcases step_cases s with ⟨-, hstep⟩ | ⟨-, -, hstep⟩ | ⟨-, -, b, hstep⟩ | ⟨-, -, i, -, hstep⟩
  on_goal 4 => exact exec_keepsCodeAndLength (hstep.symm.trans ht)
  all_goals
    obtain rfl := Host.Outcome.next.inj (ht.symm.trans hstep)
    exact ⟨rfl, rfl, rfl, rfl, le_rfl⟩

theorem run_succ_of_step {M : Host.Core} {s t : M.State} (h : M.step s = .next t) (n : Nat) :
    M.run (n + 1) s = M.run n t := by
  rw [Host.Core.run, h]

/-- A step before the end of Code raises a fault or moves the pc on, so `n` counts the bytes still to run. -/
theorem run_halts {n : Nat} {s : State} (hs : s.sound = true) (hrun : s.status = .running)
    (hn : s.code.length ≤ s.pc + n) :
    ∃ k t, k ≤ n + 1 ∧ core.run k s = .next t ∧ ((t.status = .done ∧ t.code.length ≤ t.pc) ∨ t.status = .fault) := by
  induction n generalizing s with
  | zero => exact ⟨1, _, le_rfl, run_succ_of_step (M := core) (step_eq_done hrun hn) 0, .inl ⟨rfl, hn⟩⟩
  | succ n ih =>
    obtain ⟨hend, hinside⟩ := runEndsAtCodeEnd s hrun
    rcases Nat.lt_or_ge s.pc s.code.length with hlt | hge
    · obtain ⟨t, hstep, ht⟩ := soundStepAnswersSound s hs
      obtain ⟨hcode, -⟩ := stepKeepsCodeAndLength s t hstep
      have hnext : t.status = .fault ∨ (t.status = .running ∧ s.pc < t.pc) := by
        obtain ⟨b, -, ⟨-, hinv⟩ | ⟨i, -, -, -, hmove⟩⟩ := hinside hlt
        · exact .inl (by rw [Host.Outcome.next.inj (hstep.symm.trans hinv)]; rfl)
        · rcases hmove t hstep with ⟨hrun', hpc⟩ | ⟨k, -, rfl⟩
          · exact .inr ⟨hrun', by omega⟩
          · exact .inl rfl
      rcases hnext with hfault | ⟨hrun', hpc⟩
      · exact ⟨1, t, by omega, run_succ_of_step (M := core) hstep 0, .inr hfault⟩
      · obtain ⟨k, u, hk, hu, hhalt⟩ := ih ht hrun' (by rw [hcode]; omega)
        exact ⟨k + 1, u, by omega, (run_succ_of_step (M := core) hstep k).trans hu, hhalt⟩
    · exact ⟨1, _, by omega, run_succ_of_step (M := core) (hend hge) 0, .inl ⟨rfl, hge⟩⟩

/-- Settles O51: at most all of Code is still to run. -/
theorem runAlwaysHalts : Obligations.RunAlwaysHalts := fun _ hs hrun => run_halts hs hrun (Nat.le_add_left _ _)

end Sys2Proof.Machine
end

section
/-! The opcodes that `SIGNED_MODE` governs: the signed readings, or the unsigned words (41_arithmetic.md R145, R147;
43_bitwise.md R178). -/

namespace Sys2Proof.Machine

open Sys2Proof.Claims

/-! ### Signed quotient and remainder -/

theorem sign_natCast_mul_of_le {m k : Nat} (h : k ≤ m) : Int.sign m * k = k := by
  rcases Nat.eq_zero_or_pos m with rfl | hpos
  · simp [Nat.le_zero.mp h]
  · rw [Int.sign_eq_one_of_pos (Int.natCast_pos.mpr hpos), one_mul]

theorem signedQuotient_natCast (m k : Nat) : signedQuotient m k = (m / k : Nat) := by
  rw [signedQuotient, mul_assoc, Int.natAbs_natCast, Int.natAbs_natCast]
  rcases Nat.eq_zero_or_pos k with rfl | hpos
  · simp
  · rw [Int.sign_eq_one_of_pos (Int.natCast_pos.mpr hpos), one_mul, sign_natCast_mul_of_le (Nat.div_le_self m k)]

theorem signedQuotient_neg_left (n d : Int) : signedQuotient (-n) d = -signedQuotient n d := by simp [signedQuotient]

theorem signedQuotient_neg_right (n d : Int) : signedQuotient n (-d) = -signedQuotient n d := by simp [signedQuotient]

/-- The magnitudes are divided, so the quotient rounds toward zero. -/
theorem signedQuotient_eq_tdiv (n d : Int) : signedQuotient n d = n.tdiv d := by
  obtain ⟨m, rfl | rfl⟩ := n.eq_nat_or_neg <;> obtain ⟨k, rfl | rfl⟩ := d.eq_nat_or_neg <;>
    simp only [signedQuotient_neg_left, signedQuotient_neg_right, signedQuotient_natCast, Int.neg_tdiv,
      Int.tdiv_neg, Int.ofNat_tdiv]

theorem signedRemainder_natCast (m : Nat) (d : Int) : signedRemainder m d = (m % d.natAbs : Nat) := by
  rw [signedRemainder, Int.natAbs_natCast, sign_natCast_mul_of_le (Nat.mod_le ..)]

theorem signedRemainder_neg_left (n d : Int) : signedRemainder (-n) d = -signedRemainder n d := by
  simp [signedRemainder]

/-- The remainder of the magnitudes takes the sign of the dividend; that of the divisor has no effect. -/
theorem signedRemainder_eq_tmod (n d : Int) : signedRemainder n d = n.tmod d := by
  have hdivisor : n.tmod d = n.tmod d.natAbs := by
    obtain ⟨k, rfl | rfl⟩ := d.eq_nat_or_neg <;> simp
  rw [hdivisor]
  obtain ⟨m, rfl | rfl⟩ := n.eq_nat_or_neg <;>
    simp only [signedRemainder_neg_left, signedRemainder_natCast, Int.neg_tmod, Int.ofNat_tmod]

/-- Settles O14: in the signed reading the word is the truncated quotient, reduced; else it is what `DIV` pushes. -/
theorem sdivPushesSignedQuotient : Obligations.SdivPushesSignedQuotient := by
  refine popsTwo_of_exec_eq_binary (f := fun cfg => sdivWord cfg.signedMode) rfl (fun _ => rfl) fun cfg a b => ?_
  cases cfg.signedMode with
  | twosComplement => simp only [sdivWord, signedQuotient_eq_tdiv, s256_eq_toInt, u256]
  | sourceUnsigned => exact divWord_toNat a b

/-- Settles O16: in the signed reading the word is the remainder with the dividend's sign; else it is what `MOD`
pushes. -/
theorem smodPushesSignedRemainder : Obligations.SmodPushesSignedRemainder := by
  refine popsTwo_of_exec_eq_binary (f := fun cfg => smodWord cfg.signedMode) rfl (fun _ => rfl) fun cfg a b => ?_
  cases cfg.signedMode with
  | twosComplement => simp only [smodWord, signedRemainder_eq_tmod, s256_eq_toInt, u256]
  | sourceUnsigned => exact ite_u256_mod_toNat b.toNat a

/-! ### Arithmetic shift -/

/-- An integer in the range of a signed word is what its word reads as. -/
theorem u256_toInt {z : Int} (hlo : -2 ^ 255 ≤ z) (hhi : z < 2 ^ 255) : (u256 z).toInt = z :=
  BitVec.toInt_ofInt_eq_self (by decide) hlo hhi

/-- R178: a quotient of a signed word by a power of two needs no reduction. -/
theorem fdiv_two_pow_range (b : Word) (k : Nat) :
    -2 ^ 255 ≤ b.toInt.fdiv (2 ^ k) ∧ b.toInt.fdiv (2 ^ k) < 2 ^ 255 := by
  have hlo : -2 ^ 255 ≤ b.toInt := BitVec.le_toInt b
  have hhi : b.toInt < 2 ^ 255 := BitVec.toInt_lt
  have hpos : (0 : Int) < 2 ^ k := by positivity
  rw [Int.fdiv_eq_ediv_of_nonneg _ hpos.le, Int.le_ediv_iff_mul_le hpos, Int.ediv_lt_iff_lt_mul hpos]
  generalize (2 : Int) ^ k = p at hpos
  omega

/-- A power above the magnitude leaves the sign alone: 0, or -1 for a negative number. -/
theorem fdiv_eq_of_le {z p : Int} (hlo : -p ≤ z) (hhi : z < p) : z.fdiv p = if 0 ≤ z then 0 else -1 := by
  rw [Int.fdiv_eq_ediv_of_nonneg _ (by omega)]
  split
  case isTrue h => exact Int.ediv_eq_zero_of_lt h hhi
  case isFalse h =>
    have hpos : 0 < p := by omega
    have hlt : z / p < 0 := (Int.ediv_lt_iff_lt_mul hpos).mpr (by omega)
    have hle : -1 ≤ z / p := (Int.le_ediv_iff_mul_le hpos).mpr (by omega)
    omega

theorem toInt_nonneg_iff (b : Word) : 0 ≤ b.toInt ↔ b.toNat / 2 ^ 255 = 0 := by
  rw [← s256_eq_toInt, s256, Nat.div_eq_zero_iff_lt (by decide)]
  split <;> omega

/-- R178: an amount of 256 or more leaves copies of the sign bit, so testing for it first changes nothing. -/
theorem sarWord_twosComplement (a b : Word) :
    sarWord .twosComplement a b = u256 (b.toInt.fdiv (2 ^ a.toNat)) := by
  rw [sarWord, s256_eq_toInt]
  split
  case isFalse => rfl
  case isTrue h =>
    have hpow : (2 : Int) ^ 255 ≤ 2 ^ a.toNat := pow_le_pow_right₀ (by decide) (by omega)
    have hlo : -2 ^ 255 ≤ b.toInt := BitVec.le_toInt b
    have hhi : b.toInt < 2 ^ 255 := BitVec.toInt_lt
    rw [fdiv_eq_of_le (by omega) (by omega)]
    simp only [toInt_nonneg_iff]
    split
    case isTrue => rfl
    case isFalse => decide

/-- Settles O34: in the signed reading the quotient rounds toward minus infinity; else the word is what `SHR` pushes. -/
theorem sarShiftsInTheSign : Obligations.SarShiftsInTheSign := by
  refine popsTwo_of_exec_eq_binary (f := fun cfg => sarWord cfg.signedMode) rfl (fun _ => rfl) fun cfg a b => ?_
  cases cfg.signedMode with
  | twosComplement =>
    obtain ⟨hlo, hhi⟩ := fdiv_two_pow_range b a.toNat
    exact (congrArg BitVec.toInt (sarWord_twosComplement a b)).trans (u256_toInt hlo hhi)
  | sourceUnsigned => exact shrWord_toNat a b

end Sys2Proof.Machine
end

section
/-! The frame of the instructions that do not access Memory, and stores and loads that meet: a load reads what was
stored last (10_state.md section 7, 20_memory.md R55, R61). -/

namespace Sys2Proof.Machine

open Sys2Proof.Claims

/-! ### Instructions that do not access Memory -/

/-- The two ways an instruction outside Memory can end: a fault, or the words it needs replaced by one. -/
def PushesOneWord (i : Instr) (s : State) (r : Result) : Prop :=
  (∃ k, k ≠ .noFault ∧ r = takeFault k s) ∨ ∃ w, r = complete (immBytes i) (w :: s.stack.drop (minDepth i)) s

theorem unary_pushesOneWord {i : Instr} (hd : minDepth i = 1) (f : Word → Word) (s : State) :
    PushesOneWord i s (unary f s) := by
  rcases unary_cases f s with ⟨-, h⟩ | ⟨a, st, hst, h⟩
  · exact .inl ⟨_, by decide, h⟩
  · exact .inr ⟨f a, by rw [h, immBytes_eq_zero_of_minDepth_pos (by omega), hd, hst]; rfl⟩

theorem binary_pushesOneWord {i : Instr} (hd : minDepth i = 2) (f : Word → Word → Word) (s : State) :
    PushesOneWord i s (binary f s) := by
  rcases binary_cases f s with ⟨-, h⟩ | ⟨a, b, st, hst, h⟩
  · exact .inl ⟨_, by decide, h⟩
  · exact .inr ⟨f a b, by rw [h, immBytes_eq_zero_of_minDepth_pos (by omega), hd, hst]; rfl⟩

theorem ternary_pushesOneWord {i : Instr} (hd : minDepth i = 3) (f : Word → Word → Word → Word) (s : State) :
    PushesOneWord i s (ternary f s) := by
  rcases ternary_cases f s with ⟨-, h⟩ | ⟨a, b, c, st, hst, h⟩
  · exact .inl ⟨_, by decide, h⟩
  · exact .inr ⟨f a b c, by rw [h, immBytes_eq_zero_of_minDepth_pos (by omega), hd, hst]; rfl⟩

theorem pushWord_pushesOneWord {i : Instr} (hd : minDepth i = 0) (v : Word) (s : State) :
    PushesOneWord i s (pushWord (immBytes i) v s) := by
  rcases pushWord_cases (immBytes i) v s with ⟨-, h⟩ | ⟨-, h⟩
  · exact .inl ⟨_, by decide, h⟩
  · exact .inr ⟨v, by rw [h, hd, List.drop_zero]⟩

theorem pushImm_pushesOneWord {i : Instr} (hd : minDepth i = 0) (v : Word) (s : State) :
    PushesOneWord i s (pushImm (immBytes i) v s) := by
  rcases pushImm_cases (immBytes i) v s with ⟨-, h⟩ | ⟨-, h⟩
  · exact .inl ⟨_, by decide, h⟩
  · rw [h]
    exact pushWord_pushesOneWord hd v s

theorem exec_pushesOneWord {i : Instr} (hacc : accessBytes i = 0) (s : State) : PushesOneWord i s (exec i s) := by
  cases i with
  | iszero | not => exact unary_pushesOneWord rfl _ s
  | add | mul | sub | div | sdiv | mod | smod | exp | signextend => exact binary_pushesOneWord rfl _ s
  | lt | gt | slt | sgt | eq | and | or | xor | byte | shl | shr | sar => exact binary_pushesOneWord rfl _ s
  | addmod | mulmod => exact ternary_pushesOneWord rfl _ s
  | mload | mstore | mstore8 => exact absurd hacc (by decide)
  | msize | push0 => exact pushWord_pushesOneWord rfl _ s
  | _ v => exact pushImm_pushesOneWord rfl v s

/-- Settles O53: neither a fault nor the completion of such an instruction writes Memory. -/
theorem nonMemoryFrame : Obligations.NonMemoryFrame := by
  intro i s t h1 h2 h3 ht
  rcases exec_pushesOneWord (accessBytes_eq_zero h1 h2 h3) s with ⟨k, hk, hfault⟩ | ⟨w, hdone⟩
  · obtain rfl := Host.Outcome.next.inj (ht.symm.trans hfault)
    exact ⟨fun _ => rfl, rfl, .inl ⟨k, hk, rfl⟩⟩
  · obtain rfl := Host.Outcome.next.inj (ht.symm.trans hdone)
    refine ⟨fun _ => rfl, rfl, .inr ⟨?_, rfl⟩⟩
    rw [Nat.add_assoc]
    rfl

/-! ### What a store leaves to the next access -/

/-- Every instruction that answers a next state keeps a sound Memory sound. -/
theorem memorySound_of_exec {i : Instr} {s t : State} (h : exec i s = .next t) (hs : memorySound s = true) :
    memorySound t = true := by
  rcases exec_ends i s with ⟨k, -, -, hfault⟩ | ⟨st, m, len, hdone, -, -, hm⟩ | ⟨-, hout⟩
  · obtain rfl := Host.Outcome.next.inj (h.symm.trans hfault)
    exact hs
  · obtain rfl := Host.Outcome.next.inj (h.symm.trans hdone)
    exact hm hs
  · simp [hout] at h

/-- An access inside a sound Memory grows nothing. -/
theorem memGrow_eq_self {s : State} {a n : Nat} (hs : memorySound s = true) (hu : 0 < s.cfg.growthUnit)
    (h : a + n ≤ s.memLen) : memGrow a n s = some s := by
  obtain ⟨-, -, -, hcap⟩ := (memorySound_iff s).mp hs
  have hlen : grownLen s a n = s.memLen := lengthAfter_eq_memLen hu hs h
  simp [memGrow, hlen, hcap]

theorem loadBytes_of_le {s : State} {n : Nat} {a : Word} {st : List Word} (hst : s.stack = a :: st)
    (hs : memorySound s = true) (hu : 0 < s.cfg.growthUnit) (h : a.toNat + n ≤ s.memLen) :
    loadBytes n s = complete 0 (u256 (be (s.mem.getBytes a.toNat n)) :: st) s := by
  simp only [loadBytes, hst, memGrow_eq_self hs hu h, memRead_of_le h]

theorem getBytes_eq_of_getD {m : Memory} {a n : Nat} {bs : List Byte} (hlen : bs.length = n)
    (h : ∀ k, k < n → m.get (a + k) = bs.getD k 0) : m.getBytes a n = bs := by
  refine List.ext_getElem ((length_getBytes ..).trans hlen.symm) fun k h1 h2 => ?_
  have hget := (getBytes_getD m (hlen ▸ h2)).trans (h k (hlen ▸ h2))
  rwa [List.getD_eq_getElem _ _ h1, List.getD_eq_getElem _ _ h2] at hget

theorem u256_toNat (b : Word) : u256 b.toNat = b := BitVec.eq_of_toNat_eq (u256_toNat_of_lt b.isLt)

theorem u256_be_bytesBe (b : Word) : u256 (be (bytesBe b.toNat 32)) = b := by
  rw [be_bytesBe_of_lt (b.isLt.trans_le (by decide)), u256_toNat]

/-- Settles O55: the store has grown Memory over the range, so the load grows nothing and reads the bytes of the
value. -/
theorem storeThenLoadReturnsValue : Obligations.StoreThenLoadReturnsValue := by
  intro s t a b st st' hs hu hst hexec hstatus hrun
  have hfit : LengthFits s (lengthAfter s a.toNat 32) := by
    by_contra hlim
    obtain rfl := Host.Outcome.next.inj (hexec.symm.trans (storeBytes_memoryLimit hst hlim))
    exact hrun hstatus.symm
  have ht : memorySound t = true := memorySound_of_exec hexec hs
  obtain ⟨m, hstore, -, hget⟩ := storeBytes_complete hst hs hu hfit
  obtain rfl := Host.Outcome.next.inj (hexec.symm.trans hstore)
  have hbytes : m.getBytes a.toNat 32 = bytesBe b.toNat 32 := by
    refine getBytes_eq_of_getD (length_bytesBe ..) fun k hk => ?_
    rw [hget, if_pos (by omega), Nat.add_sub_cancel_left, bytesBe_mod]
  have hload := loadBytes_of_le (n := 32) (s := { s with
    pc := s.pc + 1, stack := a :: st', mem := m, memLen := lengthAfter s a.toNat 32 }) rfl ht hu
    (add_le_lengthAfter hu a.toNat 32)
  rw [hbytes, u256_be_bytesBe] at hload
  exact hload

/-! ### Accesses that overlap -/

/-- Settles O56: the bytes of the load and of each store are those of O35, O36 and O37. -/
theorem mixedWidthAccess : Obligations.MixedWidthAccess := by
  obtain ⟨-, hstore, -, -⟩ := mstoreWritesBigEndianWord.2
  obtain ⟨-, hstore8, -, -⟩ := mstore8WritesLowByte
  obtain ⟨-, hload, -, -⟩ := mloadReadsBigEndianWord
  refine ⟨fun s p v o st st' hs hu hcap hst hle hlt => ?_, fun s a v c w st st' hs hu hcap hst => ?_⟩
  · obtain ⟨m, hexec, -, hbyte, hout, -⟩ := hstore8 s p v st hst hs hu (lengthFits_of_unbounded hcap _)
    have ht := memorySound_of_exec hexec hs
    obtain ⟨m', x, hexec', hword, -, -⟩ := hload { s with
      pc := s.pc + 1, stack := o :: st', mem := m, memLen := lengthAfter s p.toNat 1 } o st' rfl ht hu
      (lengthFits_of_unbounded hcap _)
    refine ⟨_, _, x, hexec, hexec', rfl, fun k hk => ?_⟩
    rw [hword k hk]
    show (m.get (o.toNat + k)).toNat = _
    split
    case isTrue hkp =>
      have hlow := hbyte 0 (by decide)
      rw [show o.toNat + k = p.toNat + 0 by omega, hlow, BitVec.toNat_ofNat, Nat.pow_zero, Nat.div_one]
    case isFalse hkp => rw [hout _ (by omega)]
  · obtain ⟨m, hexec, -, hbyte, -, -⟩ := hstore s a v st hst hs hu (lengthFits_of_unbounded hcap _)
    have ht := memorySound_of_exec hexec hs
    obtain ⟨m', hexec', -, hbyte', hout', -⟩ := hstore { s with
      pc := s.pc + 1, stack := c :: w :: st', mem := m, memLen := lengthAfter s a.toNat 32 } c w st' rfl ht hu
      (lengthFits_of_unbounded hcap _)
    refine ⟨_, _, hexec, hexec', fun k hk => ?_, fun k hk hx => ?_⟩
    · show (m'.get (c.toNat + k)).toNat = _
      rw [hbyte' k hk, BitVec.toNat_ofNat]
    · show (m'.get (a.toNat + k)).toNat = _
      rw [hout' _ hx]
      show (m.get (a.toNat + k)).toNat = _
      rw [hbyte k hk, BitVec.toNat_ofNat]

end Sys2Proof.Machine
end

section
/-! The host operations: where each is allowed, what it leaves and what it hands over (70_reset_and_hazards.md R230,
R231; 10_state.md R26, R31; 60_exceptions.md R201). -/

namespace Sys2Proof.Machine

open Sys2Proof.Claims

/-! ### `LOAD_CODE` -/

theorem hostLoadCode_accepted {s : State} {bytes : List Byte} (hidle : s.status = .idle)
    (hfit : within bytes.length s.cfg.codeCap = true) :
    hostLoadCode bytes s = ({ s with code := bytes, codeLoaded := true }, .accepted) := by
  rw [hostLoadCode, if_pos hidle, if_pos hfit]

theorem hostLoadCode_too_long {s : State} {bytes : List Byte} (hidle : s.status = .idle)
    (hlong : ¬within bytes.length s.cfg.codeCap = true) : hostLoadCode bytes s = (s.forgetCode, .refused) := by
  rw [hostLoadCode, if_pos hidle, if_neg hlong]

/-! ### The reads -/

theorem readStack_refused {s : State} {i : Nat} (h : ¬s.halted = true ∨ s.stack.length ≤ i) :
    readStack i s = .refused := by
  by_cases hh : s.halted = true
  · have hnone : (finalStack s)[i]? = none :=
      List.getElem?_eq_none (by simpa [finalStack] using h.resolve_left (not_not_intro hh))
    rw [readStack, if_pos hh, hnone]
  · exact if_neg hh

theorem readMem_refused {s : State} {i : Nat} (h : ¬s.halted = true ∨ s.memLen ≤ i) : readMem i s = .refused :=
  if_neg fun hc => h.elim (fun hh => hh hc.1) (Nat.not_le.mpr hc.2)

/-- The codes of R26 and R201 are those of the model. -/
theorem statusView_eq (s : State) : statusView s =
    { status := statusNumber s.status, faultKind := faultNumber s.cfg.faultCodes s.faultKind, faultPc := s.faultPc,
      faultInfo := s.faultInfo, pc := s.pc, sp := s.stack.length, memLen := s.memLen,
      codeLen := s.code.length } := by
  have hstatus : statusCode s.status = statusNumber s.status := by cases s.status <;> rfl
  have hkind : faultCode s.cfg.faultCodes s.faultKind = faultNumber s.cfg.faultCodes s.faultKind := by
    cases s.faultKind <;> rfl
  rw [statusView, hstatus, hkind]
  rfl

/-- Settles O59, operation by operation. -/
theorem hostProtocol : Obligations.HostProtocol := by
  refine ⟨fun s bytes => ⟨fun hidle hfit => ?_, fun hidle hlong => ?_, fun hne => ?_⟩,
    fun s => ⟨rfl, atReset_hostReset s, rfl, ?_⟩, fun s => ⟨fun h => ?_, fun h => ?_⟩, fun s => ?_,
    ⟨rfl, rfl, rfl, rfl, rfl⟩, fun s i => ⟨fun hh hi => ?_, fun h => ?_⟩, fun s i => ⟨fun hh hi => ?_, fun h => ?_⟩⟩
  · exact hostLoadCode_accepted hidle ((within_iff _ _).mpr hfit)
  · exact ⟨_, hostLoadCode_too_long hidle (mt (within_iff _ _).mp hlong)⟩
  · exact hostLoadCode_of_ne_idle hne bytes
  · exact congrArg Prod.snd (hostStart_of_not_allowed (s := hostReset s) fun h => Bool.false_ne_true h.2)
  · exact hostStart_of_loaded h.1 h.2
  · exact hostStart_of_not_allowed h
  · rw [hostOp, statusView_eq]
  · exact ⟨_, List.getElem?_eq_getElem (by omega), by rw [hostOp, readStack_of_halted ((halted_iff s).mpr hh) hi]⟩
  · rw [hostOp, readStack_refused (by rwa [halted_iff])]
  · rw [hostOp, readMem_of_halted ((halted_iff s).mpr hh) hi]
  · rw [hostOp, readMem_refused (by rwa [halted_iff])]

end Sys2Proof.Machine
end
